-- ==== Sys2Proof/Word.lean ====
section
/-! DEFINITION. The data of the CORE: `u8`, bit, sequence, and the one rounding operation of the notation (R13).
All index arithmetic of the CORE is over the natural numbers (R9, R13, R150): only channel values and bytes are bit vectors. -/

namespace Sys2Proof

/-- A `u8` (R13): a byte of a byte sequence, or a channel value of a pixel. `v.getLsbD i` is `v[i]`, bit 0 the least significant. -/
abbrev Byte := BitVec 8

/-- A `bit` (R13): `true` is 1, `false` is 0. -/
abbrev Bit := Bool

/-- A sequence of `u8` indexed from 0, the content of one address space of R40 (BYTES, PIX or OUT).
A list has exactly the elements 0 to `length - 1`, so equal contents are equal data (log 5). -/
abbrev Space := List Byte

/-- `ceil_div(a, b)` of R13: the least natural number `q` with `b * q ≥ a`, for `b > 0`. -/
def ceilDiv (a b : Nat) : Nat := (a + b - 1) / b

end Sys2Proof
end

