-- ==== Sys2Proof/Config.lean ====
section
/-! DEFINITION. The constants SPX fixes (R12) and the build-time parameters an implementation of finite width has (R10). -/

namespace Sys2Proof

/-- `BYTE_BITS` of R12: bits per byte, and channel values per decoded byte. -/
def Config.byteBits : Nat := 8
/-- `CHANNELS` of R12: subpixel slots per pixel. -/
def Config.channels : Nat := 3
/-- `LEVEL_ONE` of R12: the channel value written for a bit of value 1. -/
def Config.levelOne : Byte := 255
/-- `LEVEL_ZERO` of R12: the channel value written for a bit of value 0 and for a padding slot. -/
def Config.levelZero : Byte := 0
/-- `THRESH` of R12: a channel value decodes to 1 exactly when it is greater. -/
def Config.thresh : Nat := 127
/-- `ENC_HEIGHT` of R12: the height of every image the encoder produces. -/
def Config.encHeight : Nat := 1

/-- The value of one parameter of R10: "a natural number or ∞". -/
inductive Bound where
  | fin (n : Nat)
  | inf
  deriving DecidableEq, Repr

/-- `x ≤ bound`; every number is within ∞ (R9). -/
def Bound.admits : Bound → Nat → Bool
  | .fin m, x => decide (x ≤ m)
  | .inf, _ => true

/-- `x < 2^bound`: the number fits in that many bits; every number fits in ∞ bits (R9, R10). -/
def Bound.holdsBits : Bound → Nat → Bool
  | .fin w, x => decide (x < 2 ^ w)
  | .inf, _ => true

/-- The four named parameters of R10, "which the model takes as arguments": a field of State that no step changes (R24; log 1). -/
structure Params where
  /-- `IDXW`: width in bits of `idx` and of every bit index computed inside ENC. -/
  idxw : Bound
  /-- `NMAX`: largest byte count accepted by BITGET and ENC. -/
  nmax : Bound
  /-- `WMAX`: largest raster width accepted by DEC and produced by ENC. -/
  wmax : Bound
  /-- `HMAX`: largest raster height accepted by DEC. -/
  hmax : Bound
  deriving DecidableEq, Repr

/-- All four parameters infinite: "exact with respect to SPX" (R9). -/
def Params.infinite : Params := ⟨.inf, .inf, .inf, .inf⟩

/-- `IDXW ≥ 4` (R10). -/
def Params.idxwValid (p : Params) : Bool :=
  match p.idxw with
  | .fin w => decide (4 ≤ w)
  | .inf => true

/-- `NMAX ≥ 1` and `8·NMAX + 2 ≤ 2^IDXW` (R10); an infinite NMAX needs an infinite IDXW. -/
def Params.nmaxValid (p : Params) : Bool :=
  match p.nmax, p.idxw with
  | .fin n, .fin w => decide (1 ≤ n) && decide (8 * n + 2 ≤ 2 ^ w)
  | .fin n, .inf => decide (1 ≤ n)
  | .inf, .fin _ => false
  | .inf, .inf => true

/-- `WMAX ≥ ceil_div(8·NMAX, 3)` (R10); a finite WMAX needs a finite NMAX. -/
def Params.wmaxValid (p : Params) : Bool :=
  match p.wmax, p.nmax with
  | .fin m, .fin n => decide (ceilDiv (8 * n) 3 ≤ m)
  | .fin _, .inf => false
  | .inf, _ => true

/-- `HMAX ≥ 1` (R10). -/
def Params.hmaxValid (p : Params) : Bool :=
  match p.hmax with
  | .fin m => decide (1 ≤ m)
  | .inf => true

/-- The constraints of R10's table, all four. -/
def Params.valid (p : Params) : Bool :=
  p.idxwValid && p.nmaxValid && p.wmaxValid && p.hmaxValid

end Sys2Proof
end

