-- ==== Sys2Proof/Syntax.lean ====
section
/-! DEFINITION. The operations (R70), the request record a host hands over (R68, R69), and the pixel (R28). -/

namespace Sys2Proof

/-- The three operations of R70, one constructor per row of spec/opcode_table.json, with the operand fields of its
format (R69). A sequence operand is the whole sequence ("handle", R69); its stated size is a field of its own, so that a
disagreement of the two can be refused (R71). -/
inductive Instr where
  /-- `BITGET`, format Q: the global bit index, the byte count N, and BYTES. -/
  | bitget (idx n : Nat) (bytes : Space)
  /-- `ENC`, format E: the byte count N and BYTES. -/
  | enc (n : Nat) (bytes : Space)
  /-- `DEC`, format D: the raster width W, its height H, and PIX by slot number (R30). -/
  | dec (w h : Nat) (pix : Space)
  deriving DecidableEq, Repr

/-- An operation request: "a record with an operation code `op` of 2 bits and the operand fields of rule R69" (R68).
It has a place for every operand field of the three formats; `op` alone tells the format (R75), and a field
that the format does not have is not looked at (log 3). -/
structure Request where
  /-- Operation code, 2 bits (R70). -/
  op : BitVec 2
  /-- Operand of format Q: the global bit index. -/
  idx : Nat
  /-- Operand of formats Q and E: the byte count. -/
  n : Nat
  /-- Operand of format D: the raster width. -/
  w : Nat
  /-- Operand of format D: the raster height. -/
  h : Nat
  /-- Address space BYTES, read by BITGET and ENC (R41). -/
  bytes : Space
  /-- Address space PIX as an operand, read by DEC (R41). -/
  pix : Space
  deriving DecidableEq, Repr

/-- A pixel: "a triple of 8-bit channel values (R, G, B)" (R28). No packed word is defined. -/
structure Pixel where
  r : Byte
  g : Byte
  b : Byte
  deriving DecidableEq, Repr

end Sys2Proof
end

