-- ==== Sys2Proof/Decode.lean ====
section
/-! DEFINITION. Decoding a request record into an operation, total on every record, and the encoder back (R68 to R70, R74).
The spec's encoding of an operation is the record of R68: `op` and operand fields. It gives no place in a word to any field but
`op` (R69: "SPX gives none"), so the words of spec/opcode_table.json hold `op` in bits 1:0 and nothing else (log 3). -/

namespace Sys2Proof

/-- Why a request names no operation. -/
inductive DecodeReject where
  /-- `op = 11` names no unit (R74). -/
  | reservedOp
  deriving DecidableEq, Repr

/-- The operation a request names: told apart by `op` alone (R75), with the operand fields of its format (R69, R70).
`op = 11` is rejected by name (R74). -/
def decode (r : Request) : Except DecodeReject Instr :=
  match r.op.toNat with
  | 0 => .ok (.bitget r.idx r.n r.bytes)
  | 1 => .ok (.enc r.n r.bytes)
  | 2 => .ok (.dec r.w r.h r.pix)
  | _ => .error .reservedOp

/-- The `op` code of an operation (R70). -/
def Instr.op : Instr → BitVec 2
  | .bitget _ _ _ => 0b00#2
  | .enc _ _ => 0b01#2
  | .dec _ _ _ => 0b10#2

/-- A request with code `op` and every operand field zero or empty: what a word that carries the code alone stands for (log 3). -/
def Request.ofCode (op : BitVec 2) : Request :=
  { op := op, idx := 0, n := 0, w := 0, h := 0, bytes := [], pix := [] }

/-- The request of an operation: its code (R70) and the operand fields of its format (R69); the fields of other formats are zero or empty. -/
def encode (i : Instr) : Request :=
  match i with
  | .bitget idx n bytes => { Request.ofCode i.op with idx := idx, n := n, bytes := bytes }
  | .enc n bytes => { Request.ofCode i.op with n := n, bytes := bytes }
  | .dec w h pix => { Request.ofCode i.op with w := w, h := h, pix := pix }

/-- The request a word of the opcode table stands for: `op` is bits 1:0 (mask 0x3, R78), the operand fields are zero or empty.
The other bits of the word are no field of the spec's request and are not looked at (log 3). -/
def Request.ofTableWord (nbits w : Nat) : Request :=
  Request.ofCode (BitVec.ofNat 2 (w % 2 ^ nbits))

/-- The operation the decoder reads from a word of the opcode table. -/
def decodeTableWord (nbits w : Nat) : Option Instr :=
  match decode (Request.ofTableWord nbits w) with
  | .ok i => some i
  | .error _ => none

end Sys2Proof
end

