-- ==== Sys2Proof/Machine/State.lean ====
section
/-! DEFINITION. State as plain data. The CORE has no architectural state (R20 to R25, R36): no register, no program counter, no flag,
no control register. State holds the hand-over between host and CORE (the request issued and the result delivered, R34) and the
build-time parameters (R10). The address spaces of an operation live in its request and its result (R34, R40). -/

namespace Sys2Proof.Machine

/-- What one operation hands to the host at its end (R34, R69). -/
inductive Result where
  /-- Of BITGET: `some b` is `Some(b)` (`valid = 1`), `none` is "no value" (`valid = 0`), with no `bit` field then (R72, R73). -/
  | bit (r : Option Bit)
  /-- Of ENC: the width W, the height H, and the address space PIX by slot number (R100). -/
  | image (w h : Nat) (pix : Space)
  /-- Of DEC: the byte count M and the address space OUT (R120). -/
  | bytes (m : Nat) (out : Space)
  deriving DecidableEq, Repr

/-- The reasons for which the machine stops with a fault: NONE. "The CORE has no synchronous exception. The set of cause codes is
empty" (R160); spec/93: "There is no behaviour in this hardware that a model should treat as `fault` or `stuck`". -/
inductive Fault where
  deriving DecidableEq, Repr

/-- The refusal reasons of R162, "outcomes of the model and not exceptions of the hardware", and the dispatch's own. -/
inductive Refusal where
  /-- Raised by a dispatch arm whose instruction has no meaning yet (no arm of this model). Safe. -/
  | notModelled (mnemonic : String)
  /-- Raised by the step for a request with `op = 11` (R74). Safe: nothing can be proved of a refused request. -/
  | reservedOp
  /-- Raised by BITGET, ENC and DEC for an operand beyond a finite parameter (R11, R162). Safe. -/
  | overLimit
  /-- Raised by BITGET, ENC and DEC for a sequence whose length differs from its stated size (R71, R162). Safe. -/
  | badLength
  deriving DecidableEq, Repr

/-- The state of the model. -/
structure State where
  /-- The build-time parameters of R10; no operation reads them as state or writes them (R24). The model's own field (log 1). -/
  params : Params
  /-- The operation the host has issued and the CORE has not yet performed; `none` is idle (R180, R186). -/
  request : Option Request
  /-- What the operation that ended last handed over, until the host takes it or issues the next request; `none` is "no result
  is pending" (R34, R36; log 2). No operation reads it (R20). -/
  result : Option Result
  deriving DecidableEq, Repr

/-- The machine right after reset: idle, nothing in flight, no result pending (R36, R180), with all parameters infinite (R9; log 1). -/
def State.reset : State :=
  { params := Params.infinite, request := none, result := none }

end Sys2Proof.Machine
end

