-- ==== Sys2Proof/Machine/Ops.lean ====
section
/-! DEFINITION. The named operations over address spaces and over State. The CORE takes no exception and returns from none (R160, R165,
R166), so there is no such operation here. -/

namespace Sys2Proof.Machine

/-- `MemRead(S, a, 1)` of R14: "defined only for `a < len(S)`; no rule of this spec ever evaluates it" elsewhere (R48). The caller
hands over that proof, so an access outside a sequence cannot be written down. -/
def memRead (S : Space) (a : Nat) (inside : a < S.length) : Byte := S[a]

/-- An output address space while it is being filled: the elements written so far, in rising order of address. An address that is not
listed holds nothing yet (log 5). It exists only inside an operation and is no field of State (R35, R40). -/
abbrev Memory := List Host.Cell

/-- What an address of a partly filled output space holds: nothing, or the byte written there. -/
def Memory.read? : Memory → Nat → Option Byte
  | [], _ => none
  | (b, u) :: rest, a => if b = a then some u else Memory.read? rest a

/-- The canonical form: addresses strictly rising. -/
def Memory.wf : Memory → Bool
  | [] => true
  | [_] => true
  | (a, _) :: (b, v) :: rest => decide (a < b) && Memory.wf ((b, v) :: rest)

/-- `MemWrite(S, a, 1, v)` of R14: "element `a` of address space `S` becomes the `u8` `v`". It keeps the canonical form. -/
def memWrite : Memory → Nat → Byte → Memory
  | [], a, v => [(a, v)]
  | (b, u) :: rest, a, v =>
    if a < b then (a, v) :: (b, u) :: rest
    else if a = b then (a, v) :: rest
    else (b, u) :: memWrite rest a v

/-- The finished output, "in index order" (R8, R54): the bytes of the space in rising order of address. -/
def Memory.seq (M : Memory) : Space := M.map Prod.snd

/-- The request the next step performs: the one the host has issued (R22: nothing is fetched from a memory). -/
def fetch (s : State) : Option Request := s.request

/-- The end of an operation: its whole result is handed to the host (R34, R184). Nothing else changes (R20, R24, R34). -/
def deliver (r : Result) (s : State) : State := { s with result := some r }

/-- The operation has ended: the request is no longer in progress (R184, R186). -/
def retire (s : State) : State := { s with request := none }

/-- Perform an operation or refuse it (R71): over a limit before a wrong length, the order of R164; else one atomic event that delivers
`r` (R8). A refusal gives no next state: nothing is read, written or produced (R162). -/
def perform (tooLarge badLen : Bool) (r : Result) (s : State) : Host.Outcome State Fault Refusal :=
  if tooLarge then .refused .overLimit
  else if badLen then .refused .badLength
  else .next (deliver r s)

/-- What a step adds around the operation of a request: a request that performs is retired; a refusal passes through. -/
def conclude : Host.Outcome State Fault Refusal → Host.Outcome State Fault Refusal
  | .next t => .next (retire t)
  | .fault f => .fault f
  | .refused q => .refused q

/-- The refusal reason of a request that names no operation (R162, R74). -/
def refusalOf : DecodeReject → Refusal
  | .reservedOp => .reservedOp

end Sys2Proof.Machine
end

