-- ==== Sys2Proof/Machine/Operands.lean ====
section
/-! DEFINITION. Operand forms: the fields of a bit index (R60), slot numbers (R61), widths and counts (R66, R67), the pixel form of a
buffer (R28 to R30, R121), and the two conditions under which a request is not admitted (R11, R71). -/

namespace Sys2Proof.Machine

/-- `byte_index = idx div 8` (R60, R81). -/
def byteIndex (idx : Nat) : Nat := idx / Config.byteBits

/-- `off = idx mod 8`, the offset from the most significant bit (R60, R81). -/
def bitOffset (idx : Nat) : Nat := idx % Config.byteBits

/-- `sel = 7 − off`, the bit number counted from the least significant bit (R60). -/
def bitSelect (idx : Nat) : Nat := 7 - bitOffset idx

/-- The slot number `s = 3·p + k` of channel number `k` (R = 0, G = 1, B = 2) of pixel number `p` (R30, R61). -/
def slot (p k : Nat) : Nat := Config.channels * p + k

/-- The pixel number of row `y` and column `x` in a buffer of width `W`, row-major: `p = y·W + x` (R29). -/
def pixelNumber (W y x : Nat) : Nat := y * W + x

/-- The encoder's width for `N` bytes: `W = ceil_div(8·N, 3)` (R66, R101). -/
def encWidth (n : Nat) : Nat := ceilDiv (Config.byteBits * n) Config.channels

/-- The length `L = 3·W·H` of a pixel buffer's flattened stream (R30, R121). -/
def streamLen (w h : Nat) : Nat := Config.channels * w * h

/-- The number `M = L div 8` of complete groups in a stream of length `L` (R67, R123). -/
def groupCount (l : Nat) : Nat := l / Config.byteBits

/-- The slot `8·g + i` of position `i` in group `g` (R122). -/
def groupSlot (g i : Nat) : Nat := Config.byteBits * g + i

/-- The three channel values of a pixel in the order R, G, B (R28, R44). -/
def Pixel.channelValues (p : Pixel) : Space := [p.r, p.g, p.b]

/-- Flattening of R121: rows in ascending order, pixels left to right, R before G before B. A buffer written as one list of pixels is the
single row (R76). -/
def flatten (rows : List (List Pixel)) : Space :=
  rows.flatMap fun row => row.flatMap Pixel.channelValues

/-- BITGET's number fields exceed a finite parameter: `idx ≥ 2^IDXW` or `N > NMAX` (R11, R162). -/
def overLimitQ (p : Params) (idx n : Nat) : Bool := !(p.idxw.holdsBits idx && p.nmax.admits n)

/-- ENC's number field exceeds a finite parameter: `N > NMAX` (R11, R162). -/
def overLimitE (p : Params) (n : Nat) : Bool := !p.nmax.admits n

/-- DEC's number fields exceed a finite parameter: `W > WMAX` or `H > HMAX` (R11, R162). -/
def overLimitD (p : Params) (w h : Nat) : Bool := !(p.wmax.admits w && p.hmax.admits h)

/-- `len(S) ≠` the stated length (R71, R162). -/
def badLength (S : Space) (stated : Nat) : Bool := S.length != stated

end Sys2Proof.Machine
end

