-- ==== Sys2Proof/Machine/Flags.lean ====
section
/-! DEFINITION. The CORE has no flags (R23): no operation leaves a status bit behind. "The one flag-like value is the `valid` part of the
`BITGET` result"; here is the two-field form of that result (R72, R73) and how a consumer must read it (R187). -/

namespace Sys2Proof.Machine

/-- The result fields `valid` and `bit` of format Q (R69, R72). -/
structure BitFields where
  valid : Bit
  bit : Bit
  deriving DecidableEq, Repr

/-- The two-field form of an optional bit (R72). When `valid = 0` the `bit` field "may be 0 or 1, may differ from one query to the
next" (R73): it is the argument `unspecified`, of which nothing is assumed (log 4). -/
def bitFields (unspecified : Bit) : Option Bit → BitFields
  | some b => { valid := true, bit := b }
  | none => { valid := false, bit := unspecified }

/-- How a consumer reads the two fields: it tests `valid` first and does not use `bit` when `valid = 0` (R187). -/
def BitFields.read (f : BitFields) : Option Bit := if f.valid then some f.bit else none

end Sys2Proof.Machine
end

