-- ==== Sys2Proof/Machine/BitIndexer.lean ====
section
/-! DEFINITION. The unit `bit_indexer`: the function BITGET (R80 to R87) and the meaning of the operation BITGET. -/

namespace Sys2Proof.Machine

/-- `BITGET(idx, BYTES)` of R80: the bounds test on the byte index (R82) guards the one read (R48, R83); the bit is `v[7 − off]` (R83); an
index beyond the sequence gives "no value" (R84). -/
def bitget (idx : Nat) (bytes : Space) : Option Bit :=
  if inside : byteIndex idx < bytes.length then
    some ((memRead bytes (byteIndex idx) inside).getLsbD (bitSelect idx))
  else none

/-- The meaning of `BITGET idx, BYTES` (R80) with the stated byte count `n` (R69). -/
def execBitget (idx n : Nat) (bytes : Space) (s : State) : Host.Outcome State Fault Refusal :=
  perform (overLimitQ s.params idx n) (badLength bytes n) (.bit (bitget idx bytes)) s

end Sys2Proof.Machine
end

