-- ==== Sys2Proof/Machine/RgbDecoder.lean ====
section
/-! DEFINITION. The unit `rgb_decoder`: T (R124), DECBYTE (R126), the fill of OUT (R120, R127, R132) and the meaning of the operation DEC.
It does not use the unit `bit_indexer` (R88, C1). -/

namespace Sys2Proof.Machine

/-- `T(v)` of R124: 1 exactly when `v > 127`, strict and unsigned. -/
def threshold (v : Byte) : Bit := decide (Config.thresh < v.toNat)

/-- Every slot of a complete group lies inside the stream (R122). -/
theorem groupSlot_inside {l : Nat} (g : Fin (groupCount l)) (i : Fin 8) : groupSlot g.val i.val < l := by
  have hg : g.val < l / 8 := g.isLt
  have hi : i.val < 8 := i.isLt
  show 8 * g.val + i.val < l
  omega

/-- `DECBYTE(g, F)` of R126: from 0, the positions `i = 0 .. 7` of group `g` in order; a value above the threshold adds `2^(7−i)`. -/
def decByte (F : Space) (g : Fin (groupCount F.length)) : Byte :=
  (List.finRange 8).foldl
    (fun byte i =>
      if threshold (memRead F (groupSlot g.val i.val) (groupSlot_inside g i)) then
        byte + BitVec.ofNat 8 (2 ^ (7 - i.val))
      else byte)
    0

/-- One turn of the loop of R120: the `MemWrite` of group `g`. -/
def decWrite (F : Space) (out : Memory) (g : Fin (groupCount F.length)) : Memory :=
  memWrite out g.val (decByte F g)

/-- The loop of R120 over the groups `order`, one after the other, from an output space that holds nothing yet. -/
def decFill (F : Space) (order : List (Fin (groupCount F.length))) : Memory := order.foldl (decWrite F) []

/-- The finished OUT of a stream `F` (R127): the loop of R120 over `g in 0 .. M-1`; the last `L mod 8` values produce nothing (R123). -/
def decOut (F : Space) : Space := (decFill F (List.finRange (groupCount F.length))).seq

/-- The meaning of `DEC W, H, PIX` (R120): `PIX` is its own flattened stream (R121), `L = 3·W·H`, `M = L div 8` (R123). -/
def execDec (w h : Nat) (pix : Space) (s : State) : Host.Outcome State Fault Refusal :=
  perform (overLimitD s.params w h) (badLength pix (streamLen w h))
    (.bytes (groupCount (streamLen w h)) (decOut pix)) s

end Sys2Proof.Machine
end

