-- ==== Sys2Proof/Machine/RgbEncoder.lean ====
section
/-! DEFINITION. The unit `rgb_encoder`: CH (R103), ENCPX (R104), the fill of PIX (R100, R105, R112) and the meaning of the operation ENC. -/

namespace Sys2Proof.Machine

/-- The channel value of a bit: `b · 255` (R62, R103). -/
def levelOf (b : Bit) : Byte := if b then Config.levelOne else Config.levelZero

/-- `CH(s, BYTES)` of R103: the level of the bit at index `s`, and the constant 0 for a padding slot (R63). -/
def ch (s : Nat) (bytes : Space) : Byte :=
  match bitget s bytes with
  | some b => levelOf b
  | none => Config.levelZero

/-- `ENCPX(x, BYTES)` of R104: the channels of the pixel at position `x` carry bit indices `3x`, `3x+1`, `3x+2`. -/
def encPx (x : Nat) (bytes : Space) : Pixel :=
  { r := ch (slot x 0) bytes, g := ch (slot x 1) bytes, b := ch (slot x 2) bytes }

/-- One turn of the loop of R100: the three `MemWrite`s of pixel `x`. -/
def encWrite (bytes : Space) (pix : Memory) (x : Nat) : Memory :=
  let p := encPx x bytes
  memWrite (memWrite (memWrite pix (slot x 0) p.r) (slot x 1) p.g) (slot x 2) p.b

/-- The loop of R100 over the positions `order`, one after the other, from an output space that holds nothing yet. -/
def encFill (bytes : Space) (order : List Nat) : Memory := order.foldl (encWrite bytes) []

/-- The finished PIX of `ENC BYTES` (R105): the loop of R100 over `x in 0 .. W-1`. -/
def encOut (bytes : Space) : Space := (encFill bytes (List.range (encWidth bytes.length))).seq

/-- The meaning of `ENC BYTES` (R100) with the stated byte count `n` (R69): width R101, height R102, buffer R105. -/
def execEnc (n : Nat) (bytes : Space) (s : State) : Host.Outcome State Fault Refusal :=
  perform (overLimitE s.params n) (badLength bytes n)
    (.image (encWidth n) Config.encHeight (encOut bytes)) s

end Sys2Proof.Machine
end

