-- ==== Sys2Proof/Machine/Dispatch.lean ====
section
/-! DEFINITION. One arm per operation of R70. -/

namespace Sys2Proof.Machine

def exec (i : Instr) (s : State) : Host.Outcome State Fault Refusal :=
  match i with
  | .bitget idx n bytes => Sys2Proof.Machine.execBitget idx n bytes s
  | .enc n bytes => Sys2Proof.Machine.execEnc n bytes s
  | .dec w h pix => Sys2Proof.Machine.execDec w h pix s

end Sys2Proof.Machine
end

