-- ==== Sys2Proof/Machine/Step.lean ====
section
/-! DEFINITION. One step: perform the request the host has issued, as one atomic event (R8). -/

namespace Sys2Proof.Machine

/-- One step. An idle CORE stays as it is (R180). A request is decoded (R70); one that names no operation is refused (R74); else its
operation is performed or refused (R71), and a request that was performed is no longer in progress (R184). -/
def step (s : State) : Host.Outcome State Fault Refusal :=
  match fetch s with
  | none => .next s
  | some r =>
    match decode r with
    | .error e => .refused (refusalOf e)
    | .ok i => conclude (exec i s)

/-- `s` with the request of a word of spec/opcode_table.json issued, which the very next step performs (log 6). -/
def State.withFetchWord (s : State) (nbits w : Nat) : State :=
  { s with request := some (Request.ofTableWord nbits w) }

end Sys2Proof.Machine
end

