-- ==== Sys2Proof/Machine/Environment.lean ====
section
/-! DEFINITION. What the host can do to the CORE between operations (R7, R34, R172, R180, R181, R186). These are no steps of the CORE:
the host "has no step inside an operation" (R7), and the model has no move that changes an operand while an operation
runs (R49, R185; log 7). -/

namespace Sys2Proof.Machine

/-- The host issues a request. It does so "only when no operation is in progress" (R186): no state results otherwise. What the operation
before handed over is the host's by now (R34), so nothing of it is left at the boundary. -/
def State.issue (r : Request) (s : State) : Option State :=
  match s.request with
  | none => some { s with request := some r, result := none }
  | some _ => none

/-- The host takes the result, "only after the operation has ended" (R186). The CORE keeps no copy (R34). -/
def State.collect (s : State) : Option (Result × State) :=
  match s.request, s.result with
  | none, some r => some (r, { s with result := none })
  | _, _ => none

/-- Reset: the CORE is idle, no operation in progress, no result pending (R180); a request in progress is abandoned (R181). The
build-time parameters are no state and stay (R24). -/
def State.applyReset (s : State) : State := { s with request := none, result := none }

/-- After a refusal the host drops the request: "every refusal leaves everything unchanged" (R164), nothing was read, written or produced (R162), and
no operation is in progress. Only a request that a step refuses can be dropped; an operation cannot be cancelled (R163). -/
def State.dropRefused (s : State) : Option State :=
  match step s with
  | .refused _ => some (retire s)
  | .next _ => none
  | .fault _ => none

/-- One operation from issue to result: the host issues `r`, the CORE performs it, the host takes the result. `none` where the CORE was
not idle or the request is refused. -/
def State.transact (r : Request) (s : State) : Option (Result × State) :=
  match s.issue r with
  | none => none
  | some s1 =>
    match step s1 with
    | .next s2 => s2.collect
    | .fault _ => none
    | .refused _ => none

end Sys2Proof.Machine
end

