-- ==== Sys2Proof/Machine/Lines.lean ====
section
/-! DEFINITION. The written notation for operations (R76) and the pseudo-operations RT and BITS (R77), as data and as host behaviour: a
line's operands are resolved by the host, its operation is issued, and its results are bound to names (log 8). -/

namespace Sys2Proof.Machine

/-- A name of R76, on the right of an arrow or in an operand. Names are numbered. -/
abbrev Var := Nat

/-- What a name is bound to: a number (W, H, M), a sequence (BYTES, PIX, OUT), or an optional bit (R72). -/
inductive Value where
  | num (n : Nat)
  | seq (S : Space)
  | optBit (r : Option Bit)
  deriving DecidableEq, Repr

/-- "the named sequences and numbers the host holds" (spec/95 part 3): the latest binding of a name comes first. -/
abbrev Bindings := List (Var × Value)

/-- The value a name is bound to; nothing if it is unbound. -/
def Bindings.value? : Bindings → Var → Option Value
  | [], _ => none
  | (y, v) :: rest, x => if y = x then some v else Bindings.value? rest x

/-- A number operand of a line: written out, or a name. -/
inductive NumArg where
  | lit (n : Nat)
  | var (x : Var)
  deriving DecidableEq, Repr

/-- A sequence operand of a line: written out, or a name. -/
inductive SeqArg where
  | lit (S : Space)
  | var (x : Var)
  deriving DecidableEq, Repr

/-- The number an operand stands for. -/
def NumArg.value? (env : Bindings) : NumArg → Option Nat
  | .lit n => some n
  | .var x =>
    match env.value? x with
    | some (.num n) => some n
    | _ => none

/-- The sequence an operand stands for. -/
def SeqArg.value? (env : Bindings) : SeqArg → Option Space
  | .lit S => some S
  | .var x =>
    match env.value? x with
    | some (.seq S) => some S
    | _ => none

/-- A line of R76. `N` is not written: "it is `len(BYTES)`". -/
inductive Line where
  /-- `BITGET idx, BYTES -> r`. -/
  | bitget (idx : NumArg) (bytes : SeqArg) (r : Var)
  /-- `ENC BYTES -> (W, H, PIX)`. -/
  | enc (bytes : SeqArg) (w h pix : Var)
  /-- `DEC W, H, PIX -> (M, OUT)`. -/
  | dec (w h : NumArg) (pix : SeqArg) (m out : Var)
  /-- `HOST: ...`, "not an operation of the CORE": the host binds a name to whatever it likes (R172, D21). -/
  | host (x : Var) (v : Value)
  deriving DecidableEq, Repr

/-- Why a line does not go through. Neither is an event of the CORE (R160). -/
inductive LineStop where
  /-- An operand is not bound to a value of its kind. -/
  | unbound
  /-- The operation was not performed: the request was refused (R162), or one was in progress (R186). -/
  | notPerformed
  deriving DecidableEq, Repr

/-- The operation of a line under the bindings so far; none for a host line or an unbound operand. -/
def Line.instr? (env : Bindings) : Line → Option Instr
  | .bitget idx bytes _ =>
    match idx.value? env, bytes.value? env with
    | some i, some S => some (.bitget i S.length S)
    | _, _ => none
  | .enc bytes _ _ _ =>
    match bytes.value? env with
    | some S => some (.enc S.length S)
    | none => none
  | .dec w h pix _ _ =>
    match w.value? env, h.value? env, pix.value? env with
    | some W, some H, some F => some (.dec W H F)
    | _, _, _ => none
  | .host _ _ => none

/-- "A name on the right of `->` is bound to the result" (R76). The result is of the line's own operation. -/
def Line.bindings (env : Bindings) : Line → Result → Bindings
  | .bitget _ _ r, .bit b => (r, .optBit b) :: env
  | .enc _ w h pix, .image W H P => (pix, .seq P) :: (h, .num H) :: (w, .num W) :: env
  | .dec _ _ _ m out, .bytes M O => (out, .seq O) :: (m, .num M) :: env
  | _, _ => env

/-- Run one line: a host line binds its name; an operation line is issued, performed and its result bound. -/
def Line.run (line : Line) (env : Bindings) (s : State) : Except LineStop (Bindings × State) :=
  match line with
  | .host x v => .ok ((x, v) :: env, s)
  | l =>
    match l.instr? env with
    | none => .error .unbound
    | some i =>
      match s.transact (encode i) with
      | none => .error .notPerformed
      | some (r, t) => .ok (l.bindings env r, t)

/-- "Lines run top to bottom, one operation at a time" (R76). -/
def runLines : List Line → Bindings → State → Except LineStop (Bindings × State)
  | [], env, s => .ok (env, s)
  | l :: rest, env, s =>
    match l.run env s with
    | .error e => .error e
    | .ok (env', t) => runLines rest env' t

/-- `RT BYTES -> OUT` of R77: ENC then DEC, with no host action in between. -/
def pseudoRt (bytes : SeqArg) (w h pix m out : Var) : List Line :=
  [.enc bytes w h pix, .dec (.var w) (.var h) (.var pix) m out]

/-- `BITS n, BYTES -> [r0, ..., r(n−1)]` of R77: BITGET of the indices 0 to `n − 1`; result `rj` has the name `r0 + j`. -/
def pseudoBits (n : Nat) (bytes : SeqArg) (r0 : Var) : List Line :=
  (List.range n).map fun j => .bitget (.lit j) bytes (r0 + j)

end Sys2Proof.Machine
end

