-- ==== Sys2Proof/Safety.lean ====
section
/-! DEFINITION. What holds of every state a run can reach: valid parameters (R10) and a delivered result of the shape its operation
gives (R31, R32). -/

namespace Sys2Proof.Machine

/-- A PIX the encoder makes from `n` bytes at parameters `p` (R32, R111): height 1, `W = ceil_div(8·n, 3)` within WMAX (R10), exactly `3·W`
channel values, each 0 or 255, and 0 in every slot at or beyond `8·n`. -/
def encoderImage (p : Params) (n w h : Nat) (pix : Space) : Prop :=
  h = 1 ∧ w = ceilDiv (8 * n) 3 ∧ p.wmax.admits w = true ∧ pix.length = 3 * w ∧
    (∀ v ∈ pix, v = 0 ∨ v = 255) ∧ ∀ s, 8 * n ≤ s → s < 3 * w → pix[s]? = some 0

/-- The shape of a delivered result: an optional bit; an encoder image of some byte count; `M` bytes (R31), as many as
some raster within the limits has complete groups (R123). -/
def Result.shaped (p : Params) : Result → Prop
  | .bit _ => True
  | .image w h pix => ∃ n, p.nmax.admits n = true ∧ encoderImage p n w h pix
  | .bytes m out => out.length = m ∧
      ∃ w h, p.wmax.admits w = true ∧ p.hmax.admits h = true ∧ m = 3 * w * h / 8

/-- The invariant of the model. -/
def State.Inv (s : State) : Prop :=
  s.params.valid = true ∧ ∀ r, s.result = some r → r.shaped s.params

end Sys2Proof.Machine
end

