-- ==== Sys2Proof/WellFormed.lean ====
section
/-! DEFINITION. Well-formed requests (R71), stated of the decoded operation: number fields within the parameters of R10,
and a sequence of exactly the length the number fields state. The meanings test the same two conditions
through Machine/Operands.lean; Laws/Operands.lean proves that the two agree. -/

namespace Sys2Proof

/-- The number fields are within the parameters of R10: `idx < 2^IDXW`, `N ≤ NMAX`, `W ≤ WMAX`, `H ≤ HMAX` (R11, R71). -/
def Instr.withinLimits (p : Params) : Instr → Bool
  | .bitget idx n _ => p.idxw.holdsBits idx && p.nmax.admits n
  | .enc n _ => p.nmax.admits n
  | .dec w h _ => p.wmax.admits w && p.hmax.admits h

/-- The sequence handed over has the stated length: `len(BYTES) = N`, `len(PIX) = 3·W·H` (R71). -/
def Instr.lengthsAgree : Instr → Bool
  | .bitget _ n bytes => decide (bytes.length = n)
  | .enc n bytes => decide (bytes.length = n)
  | .dec w h pix => decide (pix.length = 3 * w * h)

/-- A well-formed operation at parameters `p` (R71). Its `op` is one of the three codes because it is an `Instr`. -/
def Instr.wellFormed (p : Params) (i : Instr) : Bool :=
  i.withinLimits p && i.lengthsAgree

end Sys2Proof
end

