-- ==== Sys2Proof/Certificates/Slice0/Obligations.lean ====
section
/-! DEFINITION. The statements for the provers. "Admitted" means within the parameters of R10; statements over any `s.params` hold of every
choice of the parameters, finite or infinite. -/

open Sys2Proof Sys2Proof.Machine

/-! ## Reset, requests and the step -/

/-- R180: after reset the CORE is idle with nothing in flight and no result pending, and the next request is performed as the operation
rules say, whatever came before. -/
def Obligations.ResetLeavesIdleAndNoTrace : Prop :=
  State.reset.request = none ∧ State.reset.result = none ∧
  ∀ s : State, s.applyReset.request = none ∧ s.applyReset.result = none ∧ s.applyReset.params = s.params ∧
    ∀ (r : Request) (i : Instr), decode r = .ok i →
      ∃ t, s.applyReset.issue r = some t ∧
        step t = conclude (exec i { params := s.params, request := some r, result := none })

/-- The model's choice (log 2), resting on R180's "idle": a step of an idle CORE changes nothing. -/
def Obligations.IdleStepChangesNothing : Prop :=
  ∀ s : State, s.request = none → step s = .next s

/-- A step runs the operation its request decodes to: where the operation gives a next state, the step gives that state with the request
retired (R184, R186; log 2); where it is refused, the step is refused for the same reason. -/
def Obligations.StepRunsDecodedOperation : Prop :=
  ∀ (s : State) (r : Request) (i : Instr), s.request = some r → decode r = .ok i →
    (∀ t, exec i s = .next t → step s = .next { t with request := none }) ∧
    (∀ q, exec i s = .refused q → step s = .refused q)

/-- R74: a request with `op = 11` is refused, whatever its operands; no next state, no result. -/
def Obligations.ReservedCodeIsRefused : Prop :=
  ∀ (s : State) (r : Request), s.request = some r → r.op = 0b11#2 → step s = .refused .reservedOp

/-- R162: exactly when a request is refused, and for which reason. -/
def Obligations.RefusalReasonsAreExact : Prop :=
  ∀ (s : State) (r : Request), s.request = some r →
    let tooLarge : Prop :=
      (r.op = 0b00#2 ∧ (s.params.idxw.holdsBits r.idx = false ∨ s.params.nmax.admits r.n = false)) ∨
      (r.op = 0b01#2 ∧ s.params.nmax.admits r.n = false) ∨
      (r.op = 0b10#2 ∧ (s.params.wmax.admits r.w = false ∨ s.params.hmax.admits r.h = false))
    let wrongLength : Prop :=
      ((r.op = 0b00#2 ∨ r.op = 0b01#2) ∧ r.bytes.length ≠ r.n) ∨
      (r.op = 0b10#2 ∧ r.pix.length ≠ 3 * r.w * r.h)
    (step s = .refused .reservedOp ↔ r.op = 0b11#2) ∧
    (step s = .refused .overLimit ↔ tooLarge) ∧
    (step s = .refused .badLength ↔ ¬ tooLarge ∧ wrongLength) ∧
    ((∃ t, step s = .next t) ↔ r.op ≠ 0b11#2 ∧ ¬ tooLarge ∧ ¬ wrongLength)

/-- R160: the set of fault causes is empty, and no step faults. -/
def Obligations.NoCauseAndNoFault : Prop :=
  IsEmpty Fault ∧ ∀ (s : State) (f : Fault), step s ≠ .fault f

/-- R71: exactly the well-formed operations are performed; each then delivers a result and changes nothing else of State. -/
def Obligations.ExactlyWellFormedOperationsComplete : Prop :=
  ∀ (i : Instr) (s : State),
    (i.wellFormed s.params = true ↔ ∃ t, exec i s = .next t) ∧
    (i.wellFormed s.params = true → ∃ r, exec i s = .next { s with result := some r })

/-- R20: a result is a function of the operation's operands alone: whatever the states hold besides the parameters, the same operation
delivers the same result (R107, R146). -/
def Obligations.ResultDependsOnOperandsAlone : Prop :=
  ∀ (i : Instr) (s s' t : State), s.params = s'.params → exec i s = .next t →
    exec i s' = .next { s' with result := t.result }

/-- Frame of BITGET, ENC and DEC (R24, R34, R41): the parameters are unchanged, and so is the request in progress, hence every operand number and
every byte of the operand spaces BYTES and PIX. -/
def Obligations.OperationsLeaveOperandsAndParameters : Prop :=
  ∀ (i : Instr) (s t : State), exec i s = .next t →
    t.params = s.params ∧ t.request = s.request ∧
    ∀ r r' : Request, s.request = some r → t.request = some r' →
      ∀ a : Nat, r'.bytes[a]? = r.bytes[a]? ∧ r'.pix[a]? = r.pix[a]?

/-- The model's host move after a refusal, the choice of log 10, in keeping with "every refusal leaves everything unchanged" (R162, R164): once
the host drops a refused request, the CORE is idle with the parameters and the result it had before. The spec does not say how a
host learns of a refusal or goes on after one. A request that is performed, and an idle CORE, have nothing to drop. -/
def Obligations.RefusalLeavesEverythingUnchanged : Prop :=
  ∀ s : State,
    (∀ q, step s = .refused q → s.dropRefused = some { params := s.params, request := none, result := s.result }) ∧
    (∀ t, step s = .next t → s.dropRefused = none)

/-- R186: the host issues a request only when no operation is in progress, and takes results only after the operation has ended. -/
def Obligations.HostWaitsForTheEnd : Prop :=
  ∀ (s : State) (q r : Request), s.request = some q → s.issue r = none ∧ s.collect = none

/-! ## Encodings -/

/-- Every operation at every operand value is read back from its request (R68 to R70). -/
def Obligations.DecodeReadsBackEncode : Prop := ∀ i : Instr, decode (encode i) = .ok i

/-- A request that decodes to an operation is that operation's own request (R69, R70) once the fields that the format does not have are cleared: every
operand field of the format is read, whatever stands in the others. That those are not looked at is the model's choice (log 3), resting on R75
"told apart by `op` alone". -/
def Obligations.EncodeReadsBackDecode : Prop :=
  ∀ (r : Request) (i : Instr), decode r = .ok i →
    (encode i).op = r.op ∧
    (r.op = 0b00#2 → encode i = { r with w := 0, h := 0, pix := [] }) ∧
    (r.op = 0b01#2 → encode i = { r with idx := 0, w := 0, h := 0, pix := [] }) ∧
    (r.op = 0b10#2 → encode i = { r with idx := 0, n := 0, bytes := [] })

/-- The words of the operation table by their codes (R70, R78), and the reserved word. That a bare table word stands for zero or empty operands is the
model's choice (log 3): the spec gives operand fields no place in a word. -/
def Obligations.TableWordsDecode : Prop :=
  decodeTableWord 8 0b00 = some (.bitget 0 0 []) ∧ decodeTableWord 8 0b01 = some (.enc 0 []) ∧
  decodeTableWord 8 0b10 = some (.dec 0 0 []) ∧ decodeTableWord 8 0b11 = none

/-- R60: the fields of a bit index. `sel` is the 3-bit one's complement of `off`; the field view is `idx[..:3]` and `idx[2:0]`. -/
def Obligations.BitIndexFields : Prop :=
  ∀ idx : Nat,
    byteIndex idx = idx / 8 ∧ bitOffset idx = idx % 8 ∧ idx = 8 * byteIndex idx + bitOffset idx ∧
    bitSelect idx = 7 - bitOffset idx ∧
    byteIndex idx = idx >>> 3 ∧ bitOffset idx = idx &&& 7 ∧ bitSelect idx = bitOffset idx ^^^ 7

/-- R66: the width, the padding count and where the padding sits, by the residue of `N` modulo 3. -/
def Obligations.WidthAndPaddingByResidue : Prop :=
  ∀ n : Nat, encWidth n = (8 * n + 2) / 3 ∧
    (n % 3 = 0 → encWidth n = 8 * (n / 3) ∧ 3 * encWidth n - 8 * n = 0 ∧ 3 * encWidth n = 8 * n) ∧
    (n % 3 = 1 → encWidth n = 8 * (n / 3) + 3 ∧ 3 * encWidth n - 8 * n = 1 ∧
      slot (encWidth n - 1) 2 = 8 * n) ∧
    (n % 3 = 2 → encWidth n = 8 * (n / 3) + 6 ∧ 3 * encWidth n - 8 * n = 2 ∧
      slot (encWidth n - 1) 1 = 8 * n ∧ slot (encWidth n - 1) 2 = 8 * n + 1)

/-- R121 with R29 and R30: flattening is row-major, R before G before B. Channel `c` of the pixel at row `y`, column `x` is at
`3·(y·W + x) + c`. -/
def Obligations.FlattenIsRowMajor : Prop :=
  ∀ (W : Nat) (rows : List (List Pixel)), (∀ row ∈ rows, row.length = W) →
    (flatten rows).length = 3 * W * rows.length ∧
    ∀ (y x : Nat) (row : List Pixel) (p : Pixel), rows[y]? = some row → row[x]? = some p →
      (flatten rows)[3 * (y * W + x) + 0]? = some p.r ∧
      (flatten rows)[3 * (y * W + x) + 1]? = some p.g ∧
      (flatten rows)[3 * (y * W + x) + 2]? = some p.b

/-! ## BITGET -/

/-- BITGET completes with the bit of R80 to R84: `(v div 2^(7−off)) mod 2` of byte `idx div 8` in range, no value out of range. Nothing else of
State changes. -/
def Obligations.BitgetCompletesWithIndexedBit : Prop :=
  ∀ (s : State) (idx n : Nat) (bytes : Space),
    s.params.idxw.holdsBits idx = true → s.params.nmax.admits n = true → bytes.length = n →
    ∃ r, exec (.bitget idx n bytes) s = .next { s with result := some (.bit r) } ∧
      (∀ v : Byte, bytes[idx / 8]? = some v → r = some (decide (v.toNat / 2 ^ (7 - idx % 8) % 2 = 1))) ∧
      (n ≤ idx / 8 → r = none)

/-- R82: the result is `Some` exactly when the byte index is within bounds, equivalently when `idx < 8·N`. -/
def Obligations.BitgetIsSomeExactlyInRange : Prop :=
  ∀ (s t : State) (idx n : Nat) (bytes : Space), exec (.bitget idx n bytes) s = .next t →
    ∃ r, t.result = some (.bit r) ∧ (r.isSome = true ↔ idx / 8 < n) ∧ (r.isSome = true ↔ idx < 8 * n)

/-- R147: any bit index at or past 8 times the byte count gives "no value", which is not the bit 0. -/
def Obligations.BitgetBeyondEndIsNoValue : Prop :=
  ∀ (s : State) (idx n : Nat) (bytes : Space),
    s.params.idxw.holdsBits idx = true → s.params.nmax.admits n = true → bytes.length = n → 8 * n ≤ idx →
    exec (.bitget idx n bytes) s = .next { s with result := some (.bit none) } ∧
    (Result.bit none : Result) ≠ .bit (some false)

/-- R87: the bit stream of a byte sequence, and every byte rebuilt from its eight bits. -/
def Obligations.BytesRebuiltFromTheirBits : Prop :=
  ∀ (bytes : Space) (a : Nat) (v : Byte), bytes[a]? = some v →
    (∀ i : Nat, i < 8 → bitget (8 * a + i) bytes = some (v.getLsbD (7 - i))) ∧
    v.toNat = ∑ i ∈ Finset.range 8, if bitget (8 * a + i) bytes = some true then 2 ^ (7 - i) else 0

/-- R48, R83: BITGET reads at most the one byte `idx div 8`: operands of one length that agree on that byte give the same outcome, and
out of range no byte matters. -/
def Obligations.BitgetReadsAtMostOneByte : Prop :=
  ∀ (s : State) (idx n : Nat) (bytes bytes' : Space), bytes.length = bytes'.length →
    bytes[idx / 8]? = bytes'[idx / 8]? → exec (.bitget idx n bytes) s = exec (.bitget idx n bytes') s

/-- R72, R73, R187: read with `valid` first, the two result fields stand for the optional bit, whatever the unspecified `bit` carries. -/
def Obligations.ResultFieldsStandForOptionalBit : Prop :=
  ∀ (u : Bit) (r : Option Bit), (bitFields u r).read = r ∧ ((bitFields u r).valid = true ↔ r.isSome = true) ∧
    ∀ b, r = some b → (bitFields u r).bit = b

/-! ## ENC -/

/-- R103: CH is `b · 255` of the bit at the slot's index, 0 for padding, and so only 0 or 255. -/
def Obligations.ChannelValueOfSlot : Prop :=
  ∀ (s : Nat) (bytes : Space),
    (∀ b, bitget s bytes = some b → (ch s bytes).toNat = b.toNat * 255) ∧
    (bitget s bytes = none → ch s bytes = 0) ∧ (ch s bytes = 0 ∨ ch s bytes = 255)

/-- R101, R102, R105: ENC completes with the least width that holds all bits, height 1, and PIX of exactly `3·W` values: slot `j` is CH of `j`, a real
bit of index `j` below `8·N` (0 or 255), and 0 from there on. -/
def Obligations.EncCompletesWithAssembledBuffer : Prop :=
  ∀ (s : State) (n : Nat) (bytes : Space), s.params.nmax.admits n = true → bytes.length = n →
    ∃ (w : Nat) (pix : Space),
      exec (.enc n bytes) s = .next { s with result := some (.image w 1 pix) } ∧
      w = (8 * n + 2) / 3 ∧ 8 * n ≤ 3 * w ∧ (∀ q, 8 * n ≤ 3 * q → w ≤ q) ∧
      pix.length = 3 * w ∧
      (∀ j, j < 3 * w → pix[j]? = some (ch j bytes)) ∧
      (∀ (j : Nat) (v : Byte), j < 8 * n → bytes[j / 8]? = some v →
        pix[j]? = some (if v.getLsbD (7 - j % 8) then 255 else 0)) ∧
      ∀ j, 8 * n ≤ j → j < 3 * w → pix[j]? = some 0

/-- R111: every channel value of an encoder output is 0 or 255, its height is 1, it has 0, 1 or 2 padding slots, and those are the last of
the stream and hold 0. -/
def Obligations.EncoderOutputShape : Prop :=
  ∀ (s t : State) (n w h : Nat) (bytes pix : Space),
    exec (.enc n bytes) s = .next t → t.result = some (.image w h pix) →
    h = 1 ∧ (∀ v ∈ pix, v = 0 ∨ v = 255) ∧
    (3 * w = 8 * n ∨ 3 * w = 8 * n + 1 ∨ 3 * w = 8 * n + 2) ∧ pix.length = 3 * w ∧
    ∀ j, 8 * n ≤ j → j < 3 * w → pix[j]? = some 0

/-- R109: of the indices `0` to `3·W − 1`, those below `8·N` give a bit and the others (at most two, at most `8·N + 1`, all in the last pixel) give
no value; the last pixel carries at least one real bit. -/
def Obligations.EncoderIndicesAndPadding : Prop :=
  ∀ (bytes : Space) (j : Nat), j < 3 * encWidth bytes.length →
    j ≤ 8 * bytes.length + 1 ∧
    ((bitget j bytes).isSome = true ↔ j < 8 * bytes.length) ∧
    (bitget j bytes = none → j / 3 = encWidth bytes.length - 1) ∧
    (bitget (3 * (encWidth bytes.length - 1)) bytes).isSome = true

/-- R112, R54: the loop of R100 gives the same PIX for every order of the pixel positions. -/
def Obligations.EncoderOrderIsUnobservable : Prop :=
  ∀ (bytes : Space) (order : List Nat), order.Perm (List.range (encWidth bytes.length)) →
    (encFill bytes order).seq = encOut bytes

/-- R41: ENC writes every slot `0 ≤ s < 3·W` of PIX and no other; slot `3x + k` is channel `k` of ENCPX (R104). -/
def Obligations.EncoderWritesEverySlot : Prop :=
  ∀ bytes : Space,
    (encFill bytes (List.range (encWidth bytes.length))).map Prod.fst = List.range (3 * encWidth bytes.length) ∧
    ∀ x, x < encWidth bytes.length →
      (encOut bytes)[3 * x]? = some (encPx x bytes).r ∧
      (encOut bytes)[3 * x + 1]? = some (encPx x bytes).g ∧
      (encOut bytes)[3 * x + 2]? = some (encPx x bytes).b

/-- R10, R109: at valid parameters every index ENC forms fits in IDXW bits, and the width it produces is within WMAX. -/
def Obligations.EncoderStaysWithinParameters : Prop :=
  ∀ (p : Params) (n : Nat), p.valid = true → p.nmax.admits n = true →
    (∀ j, j < 3 * encWidth n → p.idxw.holdsBits j = true) ∧ p.wmax.admits (encWidth n) = true

/-- R145: SPX's bit-order example. -/
def Obligations.EncodingOf0x55 : Prop :=
  ∀ s : State, s.params.nmax.admits 1 = true →
    exec (.enc 1 [0b01010101#8]) s =
      .next { s with result := some (.image 3 1 (flatten [[⟨0, 255, 0⟩, ⟨255, 0, 255⟩, ⟨0, 255, 0⟩]])) }

/-! ## DEC -/

/-- R124, R144: the threshold is strict at 127 and is the most significant bit of the channel value (R64). -/
def Obligations.ThresholdIsTopBit : Prop :=
  (∀ v : Byte, (threshold v = true ↔ 127 < v.toNat) ∧ threshold v = v.getLsbD 7) ∧
  threshold 128 = true ∧ threshold 127 = false ∧ threshold 0 = false ∧ threshold 255 = true

/-- R126: one output byte is `Σ T(F[8g + i]) · 2^(7−i)`. -/
def Obligations.DecodedByteIsWeightedSum : Prop :=
  ∀ (F : Space) (g : Fin (groupCount F.length)),
    (decByte F g).toNat =
      ∑ i : Fin 8, if threshold (memRead F (groupSlot g.val i.val) (groupSlot_inside g i)) then 2 ^ (7 - i.val) else 0

/-- R120, R123, R127: DEC completes with `M = (3·W·H) div 8` bytes; bit `7 − i` of byte `g` is 1 exactly when the value at slot `8g + i` is above 127. The
`L mod 8` trailing values produce nothing. -/
def Obligations.DecCompletesWithGroups : Prop :=
  ∀ (s : State) (w h : Nat) (pix : Space),
    s.params.wmax.admits w = true → s.params.hmax.admits h = true → pix.length = 3 * w * h →
    ∃ out : Space,
      exec (.dec w h pix) s = .next { s with result := some (.bytes (3 * w * h / 8) out) } ∧
      out.length = 3 * w * h / 8 ∧
      ∀ g, g < 3 * w * h / 8 → ∃ v : Byte, out[g]? = some v ∧
        ∀ i, i < 8 → ∃ u : Byte, pix[8 * g + i]? = some u ∧ v.getLsbD (7 - i) = decide (127 < u.toNat)

/-- R161, R130: fewer than 8 channel values decode to no byte, whatever they hold. -/
def Obligations.ShortRasterDecodesToNothing : Prop :=
  ∀ (s : State) (w h : Nat) (pix : Space),
    s.params.wmax.admits w = true → s.params.hmax.admits h = true → pix.length = 3 * w * h → 3 * w * h < 8 →
    exec (.dec w h pix) s = .next { s with result := some (.bytes 0 []) }

/-- R149: rasters of equal `W·H` and the same stream decode to the same bytes. -/
def Obligations.DecodingIgnoresShape : Prop :=
  ∀ (s t : State) (w h w' h' : Nat) (pix : Space), w * h = w' * h' →
    s.params.wmax.admits w' = true → s.params.hmax.admits h' = true →
    exec (.dec w h pix) s = .next t → exec (.dec w' h' pix) s = .next t

/-- R148, first law, with R131: buffers of one size whose most significant bits agree on every slot of a complete group decode alike; the lower
seven bits and the trailing `L mod 8` values do not matter. -/
def Obligations.DecodingSeesOnlyTopBitsOfGroups : Prop :=
  ∀ (s : State) (w h : Nat) (pix pix' : Space), pix.length = pix'.length →
    (∀ (j : Nat) (u u' : Byte), j < 8 * (3 * w * h / 8) → pix[j]? = some u → pix'[j]? = some u' →
      u.getLsbD 7 = u'.getLsbD 7) →
    exec (.dec w h pix) s = exec (.dec w h pix') s

/-- R132, R54: the loop of R120 gives the same OUT for every order of the groups. -/
def Obligations.DecoderOrderIsUnobservable : Prop :=
  ∀ (F : Space) (order : List (Fin (groupCount F.length))), order.Perm (List.finRange (groupCount F.length)) →
    (decFill F order).seq = decOut F

/-- R41, R127: DEC writes every index `0 ≤ g < M` of OUT and no other; byte `g` is DECBYTE of group `g`. -/
def Obligations.DecoderWritesEveryByte : Prop :=
  ∀ F : Space,
    (decFill F (List.finRange (groupCount F.length))).map Prod.fst = List.range (F.length / 8) ∧
    ∀ g : Fin (groupCount F.length), (decOut F)[g.val]? = some (decByte F g)

/-- The model's output spaces (log 5): in canonical form, two spaces that read alike at every address are equal data. -/
def Obligations.EqualReadsMeanEqualMemory : Prop :=
  ∀ M M' : Memory, Memory.wf M = true → Memory.wf M' = true →
    (∀ a, Memory.read? M a = Memory.read? M' a) → M = M'

/-! ## Composition -/

/-- R141: for every byte sequence of any admitted length, ENC then DEC, with no host action in between, gives the sequence back, and `M = N`. -/
def Obligations.RoundTripForEveryInput : Prop :=
  ∀ (s : State) (n : Nat) (bytes : Space), s.params.valid = true → s.params.nmax.admits n = true → bytes.length = n →
    ∃ (w : Nat) (pix : Space) (t : State),
      exec (.enc n bytes) s = .next t ∧ t.result = some (.image w 1 pix) ∧
      exec (.dec w 1 pix) t = .next { t with result := some (.bytes n bytes) }

/-- R143: the empty input through ENC and DEC. -/
def Obligations.EmptyInputRoundTrip : Prop :=
  ∀ s : State, s.params.hmax.admits 1 = true →
    exec (.enc 0 []) s = .next { s with result := some (.image 0 1 []) } ∧
    exec (.dec 0 1 []) s = .next { s with result := some (.bytes 0 []) }

/-- R148, second law: an encoder output whose values the host moved, each on its own side of the midpoint, decodes to the encoder's input. -/
def Obligations.NoisyImageDecodesToInput : Prop :=
  ∀ (s t : State) (n w h : Nat) (bytes pix pix' : Space), s.params.valid = true →
    exec (.enc n bytes) s = .next t → t.result = some (.image w h pix) → pix'.length = pix.length →
    (∀ (j : Nat) (u u' : Byte), pix[j]? = some u → pix'[j]? = some u' → (u = 255 → 128 ≤ u'.toNat) ∧ (u = 0 → u'.toNat ≤ 127)) →
    exec (.dec w h pix') t = .next { t with result := some (.bytes n bytes) }

/-- R148, third sentence: a change of one value that crosses the midpoint flips that bit of the decoded bytes, and no other. -/
def Obligations.CrossingTheMidpointFlipsTheBit : Prop :=
  ∀ (F : Space) (j : Nat) (u u' v : Byte), F[j]? = some u → u.getLsbD 7 ≠ u'.getLsbD 7 → (decOut F)[j / 8]? = some v →
    decOut (F.set j u') = (decOut F).set (j / 8) (v ^^^ BitVec.ofNat 8 (2 ^ (7 - j % 8)))

/-- R156, R188: after the host removes `k` pixels from the end of an encoder output, exactly the bytes whose group is still complete come back. -/
def Obligations.CutImageLosesTrailingBytes : Prop :=
  ∀ (s t : State) (n w h k : Nat) (bytes pix : Space), s.params.valid = true →
    exec (.enc n bytes) s = .next t → t.result = some (.image w h pix) → k ≤ w →
    exec (.dec (w - k) h (pix.take (3 * (w - k)))) t =
      .next { t with result := some (.bytes (3 * (w - k) / 8) (bytes.take (3 * (w - k) / 8))) }

/-- R188: after the host appends `k` pixels, the input comes back first, then one extra byte for every further complete group of 8 values. -/
def Obligations.AppendedPixelsAddWholeGroups : Prop :=
  ∀ (s t : State) (n w h k : Nat) (bytes pix extra : Space), s.params.valid = true →
    exec (.enc n bytes) s = .next t → t.result = some (.image w h pix) → extra.length = 3 * k →
    s.params.wmax.admits (w + k) = true →
    ∃ more : Space, more.length = (3 * (w + k) - 8 * n) / 8 ∧
      exec (.dec (w + k) h (pix ++ extra)) t =
        .next { t with result := some (.bytes (n + more.length) (bytes ++ more)) }

/-- R155: ENC is no inverse of DEC. The raster `[(200, 10, 130)]` decodes to `[]`, which encodes to a zero-width image. -/
def Obligations.EncIsNoInverseOfDec : Prop :=
  ∀ s : State, s.params.wmax.admits 1 = true → s.params.hmax.admits 1 = true →
    exec (.dec 1 1 (flatten [[⟨200, 10, 130⟩]])) s = .next { s with result := some (.bytes 0 []) } ∧
    exec (.enc 0 []) s = .next { s with result := some (.image 0 1 []) } ∧
    ([] : Space) ≠ flatten [[⟨200, 10, 130⟩]]

/-- R77 and R141: the pseudo-operation RT, run as its two lines from an idle CORE, binds OUT to BYTES, whether BYTES is written out or is a name
bound to a sequence. The line semantics is the model's reading of R76 (log 8). -/
def Obligations.RtLinesGiveTheInputBack : Prop :=
  ∀ (s : State) (env : Bindings) (a : SeqArg) (bytes : Space) (w h pix m out : Var),
    s.request = none → s.params.valid = true → s.params.nmax.admits bytes.length = true → [w, h, pix, m, out].Nodup →
    a.value? env = some bytes →
    ∃ env' t, runLines (pseudoRt a w h pix m out) env s = .ok (env', t) ∧
      env'.value? out = some (.seq bytes) ∧ env'.value? m = some (.num bytes.length) ∧ t.request = none

/-- R77: the pseudo-operation BITS, run as its lines from an idle CORE, binds `rj` to the result of `BITGET j`, whether BYTES is written out or is a
name bound to a sequence (a name other than the results', which would be bound anew before its last use). The line semantics is the model's
reading of R76 (log 8). -/
def Obligations.BitsLinesGiveEveryBit : Prop :=
  ∀ (s : State) (env : Bindings) (k : Nat) (a : SeqArg) (bytes : Space) (r0 : Var),
    s.request = none → s.params.nmax.admits bytes.length = true → (∀ j, j < k → s.params.idxw.holdsBits j = true) →
    a.value? env = some bytes → (∀ x, a = .var x → ∀ j, j < k → x ≠ r0 + j) →
    ∃ env' t, runLines (pseudoBits k a r0) env s = .ok (env', t) ∧
      ∀ j, j < k → env'.value? (r0 + j) = some (.optBit (bitget j bytes))

/-! ## Invariants -/

/-- The invariant holds at reset. -/
def Obligations.ResetMeetsTheInvariant : Prop := State.reset.Inv

/-- From every state that meets the invariant, a step gives a state that meets it: the parameters stay valid and unchanged (R10, R24), and what
is delivered has the shape of R31 and R32. -/
def Obligations.EveryStepKeepsTheInvariant : Prop :=
  ∀ s t : State, s.Inv → step s = .next t → t.Inv ∧ t.params = s.params

/-- The host's own moves keep the invariant too: issuing a request, taking a result, dropping a refused request, reset (R172, R180). -/
def Obligations.HostMovesKeepTheInvariant : Prop :=
  ∀ s : State, s.Inv → s.applyReset.Inv ∧ (∀ r t, s.issue r = some t → t.Inv) ∧
    (∀ t, s.dropRefused = some t → t.Inv) ∧
    ∀ r t, s.collect = some (r, t) → t.Inv ∧ r.shaped s.params
end

