-- ==== Sys2Proof/Laws/Memory.lean ====
section
/-! SUPPORT. The basic laws of an output space: every write keeps the canonical form, a read after a write gives the value written, and a
write leaves every other address alone. -/

namespace Sys2Proof.Machine

theorem memory_empty_wf : Memory.wf [] = true := rfl

@[simp] theorem memory_empty_read (a : Nat) : Memory.read? [] a = none := rfl

theorem memory_cons_read (b : Nat) (u : Byte) (M : Memory) (a : Nat) :
    Memory.read? ((b, u) :: M) a = if b = a then some u else Memory.read? M a := rfl

/-- The canonical form is that the addresses rise strictly. -/
theorem memory_wf_cons (a : Nat) (u : Byte) (M : Memory) :
    Memory.wf ((a, u) :: M) = true ↔ (∀ c ∈ M, a < c.1) ∧ Memory.wf M = true := by
  induction M generalizing a u with
  | nil => simp [Memory.wf]
  | cons c rest ih =>
    obtain ⟨b, v⟩ := c
    simp only [Memory.wf, Bool.and_eq_true, decide_eq_true_eq, List.mem_cons, forall_eq_or_imp]
    constructor
    · rintro ⟨hab, hrest⟩
      exact ⟨⟨hab, fun c hc => lt_trans hab (((ih b v).1 hrest).1 c hc)⟩, hrest⟩
    · rintro ⟨⟨hab, _⟩, hrest⟩
      exact ⟨hab, hrest⟩

/-- The addresses listed after a write: those before, and the one written. -/
theorem memWrite_addresses {M : Memory} {a : Nat} {v : Byte} {c : Host.Cell} (h : c ∈ memWrite M a v) :
    c.1 = a ∨ c ∈ M := by
  induction M with
  | nil => simp only [memWrite, List.mem_singleton] at h; exact .inl (by rw [h])
  | cons d rest ih =>
    obtain ⟨b, u⟩ := d
    simp only [memWrite] at h
    split at h
    · rcases List.mem_cons.1 h with h | h
      · exact .inl (by rw [h])
      · exact .inr h
    · split at h
      · rcases List.mem_cons.1 h with h | h
        · exact .inl (by rw [h])
        · exact .inr (List.mem_cons_of_mem _ h)
      · rcases List.mem_cons.1 h with h | h
        · exact .inr (h ▸ List.mem_cons_self)
        · exact (ih h).imp id (List.mem_cons_of_mem _)

/-- Every write keeps the canonical form. -/
theorem memWrite_wf {M : Memory} (h : Memory.wf M = true) (a : Nat) (v : Byte) : Memory.wf (memWrite M a v) = true := by
  induction M with
  | nil => rfl
  | cons d rest ih =>
    obtain ⟨b, u⟩ := d
    obtain ⟨hb, hrest⟩ := (memory_wf_cons b u rest).1 h
    simp only [memWrite]
    split
    · exact (memory_wf_cons _ _ _).2 ⟨by
        rintro c hc
        rcases List.mem_cons.1 hc with hc | hc
        · rw [hc]; assumption
        · exact lt_trans (by assumption) (hb c hc), h⟩
    · split
      · subst_vars; exact (memory_wf_cons _ _ _).2 ⟨hb, hrest⟩
      · refine (memory_wf_cons _ _ _).2 ⟨fun c hc => ?_, ih hrest⟩
        rcases memWrite_addresses hc with hc | hc
        · omega
        · exact hb c hc

/-- An address below all those listed holds nothing. -/
theorem memory_read_none {M : Memory} {a : Nat} (h : ∀ c ∈ M, a < c.1) : Memory.read? M a = none := by
  induction M with
  | nil => rfl
  | cons d rest ih =>
    have hd : a < d.1 := h d List.mem_cons_self
    simp only [Memory.read?]
    rw [if_neg (by omega)]
    exact ih fun c hc => h c (List.mem_cons_of_mem _ hc)

/-- A read after a write: the byte written at its address, and what was there before everywhere else. -/
theorem memWrite_read (M : Memory) (a : Nat) (v : Byte) (c : Nat) :
    Memory.read? (memWrite M a v) c = if a = c then some v else Memory.read? M c := by
  induction M with
  | nil => rfl
  | cons d rest ih =>
    obtain ⟨b, u⟩ := d
    simp only [memWrite]
    split
    · rfl
    · split
      · subst_vars; simp only [Memory.read?]; split <;> rfl
      · simp only [Memory.read?, ih]; split
        · rw [if_neg (by omega)]
        · rfl

end Sys2Proof.Machine
end

