-- ==== Sys2Proof/Laws/State.lean ====
section
/-! SUPPORT. One lemma per field per update of State, and what the shared operations over State can do. -/

namespace Sys2Proof.Machine

@[simp] theorem deliver_params (r : Result) (s : State) : (deliver r s).params = s.params := rfl
@[simp] theorem deliver_request (r : Result) (s : State) : (deliver r s).request = s.request := rfl
@[simp] theorem deliver_result (r : Result) (s : State) : (deliver r s).result = some r := rfl

@[simp] theorem retire_params (s : State) : (retire s).params = s.params := rfl
@[simp] theorem retire_request (s : State) : (retire s).request = none := rfl
@[simp] theorem retire_result (s : State) : (retire s).result = s.result := rfl

@[simp] theorem applyReset_params (s : State) : s.applyReset.params = s.params := rfl
@[simp] theorem applyReset_request (s : State) : s.applyReset.request = none := rfl
@[simp] theorem applyReset_result (s : State) : s.applyReset.result = none := rfl

@[simp] theorem withFetchWord_params (s : State) (nbits w : Nat) : (s.withFetchWord nbits w).params = s.params := rfl
@[simp] theorem withFetchWord_request (s : State) (nbits w : Nat) :
    (s.withFetchWord nbits w).request = some (Request.ofTableWord nbits w) := rfl
@[simp] theorem withFetchWord_result (s : State) (nbits w : Nat) : (s.withFetchWord nbits w).result = s.result := rfl

@[simp] theorem fetch_eq (s : State) : fetch s = s.request := rfl

@[simp] theorem conclude_next (s : State) : conclude (.next s) = .next (retire s) := rfl
@[simp] theorem conclude_refused (q : Refusal) : conclude (.refused q) = .refused q := rfl

/-- The one case in which `perform` performs. -/
theorem perform_admitted {tooLarge badLen : Bool} (h1 : tooLarge = false) (h2 : badLen = false) (r : Result) (s : State) :
    perform tooLarge badLen r s = .next (deliver r s) := by simp [perform, h1, h2]

/-- Everything `perform` can do (R71, R164). -/
theorem perform_cases (tooLarge badLen : Bool) (r : Result) (s : State) :
    (tooLarge = true ∧ perform tooLarge badLen r s = .refused .overLimit) ∨
    (tooLarge = false ∧ badLen = true ∧ perform tooLarge badLen r s = .refused .badLength) ∨
    (tooLarge = false ∧ badLen = false ∧ perform tooLarge badLen r s = .next (deliver r s)) := by
  cases tooLarge <;> cases badLen <;> simp [perform]

/-- If `perform` answers a next state, the operation was admitted and only its result was delivered. -/
theorem perform_next {tooLarge badLen : Bool} {r : Result} {s t : State} (h : perform tooLarge badLen r s = .next t) :
    tooLarge = false ∧ badLen = false ∧ t = deliver r s := by
  obtain ⟨_, e⟩ | ⟨_, _, e⟩ | ⟨h1, h2, e⟩ := perform_cases tooLarge badLen r s
  · rw [e] at h; cases h
  · rw [e] at h; cases h
  · rw [e] at h; cases h; exact ⟨h1, h2, rfl⟩

/-- If `conclude` answers a next state, the operation did, and its request is retired. -/
theorem conclude_eq_next {o : Host.Outcome State Fault Refusal} {t : State} (h : conclude o = .next t) :
    ∃ u, o = .next u ∧ t = retire u := by
  cases o with
  | next u => cases h; exact ⟨u, rfl, rfl⟩
  | fault f => cases f
  | refused q => cases h

/-- The host issues a request exactly when the CORE is idle (R186). -/
theorem issue_idle {s : State} (h : s.request = none) (r : Request) :
    s.issue r = some { params := s.params, request := some r, result := none } := by
  simp [State.issue, h]

theorem issue_busy {s : State} {q : Request} (h : s.request = some q) (r : Request) : s.issue r = none := by
  simp [State.issue, h]

theorem collect_result {s : State} {r : Result} (h : s.request = none) (hr : s.result = some r) :
    s.collect = some (r, { params := s.params, request := none, result := none }) := by
  simp [State.collect, h, hr]

end Sys2Proof.Machine
end

