-- ==== Sys2Proof/Laws/Operands.lean ====
section
/-! SUPPORT. The operand forms as plain arithmetic, and the agreement of the conditions the meanings test with R71's well-formedness. -/

namespace Sys2Proof.Machine

theorem byteIndex_eq (idx : Nat) : byteIndex idx = idx / 8 := rfl
theorem bitOffset_eq (idx : Nat) : bitOffset idx = idx % 8 := rfl
theorem bitSelect_eq (idx : Nat) : bitSelect idx = 7 - idx % 8 := rfl
theorem slot_eq (p k : Nat) : slot p k = 3 * p + k := rfl
theorem pixelNumber_eq (W y x : Nat) : pixelNumber W y x = y * W + x := rfl
theorem encWidth_eq (n : Nat) : encWidth n = (8 * n + 2) / 3 := rfl
theorem streamLen_eq (w h : Nat) : streamLen w h = 3 * w * h := rfl
theorem groupCount_eq (l : Nat) : groupCount l = l / 8 := rfl
theorem groupSlot_eq (g i : Nat) : groupSlot g i = 8 * g + i := rfl

@[simp] theorem flatten_nil : flatten [] = [] := rfl
@[simp] theorem flatten_cons (row : List Pixel) (rows : List (List Pixel)) :
    flatten (row :: rows) = row.flatMap Pixel.channelValues ++ flatten rows := rfl

@[simp] theorem bound_inf_admits (x : Nat) : Bound.inf.admits x = true := rfl
@[simp] theorem bound_fin_admits (m x : Nat) : (Bound.fin m).admits x = true ↔ x ≤ m := by simp [Bound.admits]
@[simp] theorem bound_inf_holdsBits (x : Nat) : Bound.inf.holdsBits x = true := rfl
@[simp] theorem bound_fin_holdsBits (m x : Nat) : (Bound.fin m).holdsBits x = true ↔ x < 2 ^ m := by simp [Bound.holdsBits]

theorem overLimitQ_eq_false {p : Params} {idx n : Nat} :
    overLimitQ p idx n = false ↔ p.idxw.holdsBits idx = true ∧ p.nmax.admits n = true := by simp [overLimitQ]
theorem overLimitE_eq_false {p : Params} {n : Nat} : overLimitE p n = false ↔ p.nmax.admits n = true := by simp [overLimitE]
theorem overLimitD_eq_false {p : Params} {w h : Nat} :
    overLimitD p w h = false ↔ p.wmax.admits w = true ∧ p.hmax.admits h = true := by simp [overLimitD]
theorem badLength_eq_false {S : Space} {n : Nat} : badLength S n = false ↔ S.length = n := by simp [badLength]

/-- If an operation completes, it is well formed (R71: "Only a well-formed request is performed") and only a result is delivered. -/
theorem exec_next {i : Instr} {s t : State} (h : exec i s = .next t) :
    i.wellFormed s.params = true ∧ ∃ r, t = deliver r s := by
  cases i with
  | bitget idx n bytes =>
    obtain ⟨h1, h2, rfl⟩ := perform_next h
    obtain ⟨ha, hb⟩ := overLimitQ_eq_false.1 h1
    exact ⟨by simp [Instr.wellFormed, Instr.withinLimits, Instr.lengthsAgree, ha, hb, badLength_eq_false.1 h2], _, rfl⟩
  | enc n bytes =>
    obtain ⟨h1, h2, rfl⟩ := perform_next h
    exact ⟨by simp [Instr.wellFormed, Instr.withinLimits, Instr.lengthsAgree, overLimitE_eq_false.1 h1,
      badLength_eq_false.1 h2], _, rfl⟩
  | dec w h' pix =>
    obtain ⟨h1, h2, rfl⟩ := perform_next h
    obtain ⟨ha, hb⟩ := overLimitD_eq_false.1 h1
    have hl : pix.length = 3 * w * h' := badLength_eq_false.1 h2
    exact ⟨by simp [Instr.wellFormed, Instr.withinLimits, Instr.lengthsAgree, ha, hb, hl], _, rfl⟩

theorem wellFormed_bitget {p : Params} {idx n : Nat} {bytes : Space} :
    (Instr.bitget idx n bytes).wellFormed p = true ↔
      (p.idxw.holdsBits idx = true ∧ p.nmax.admits n = true) ∧ bytes.length = n := by
  simp [Instr.wellFormed, Instr.withinLimits, Instr.lengthsAgree]
theorem wellFormed_enc {p : Params} {n : Nat} {bytes : Space} :
    (Instr.enc n bytes).wellFormed p = true ↔ p.nmax.admits n = true ∧ bytes.length = n := by
  simp [Instr.wellFormed, Instr.withinLimits, Instr.lengthsAgree]
theorem wellFormed_dec {p : Params} {w h : Nat} {pix : Space} :
    (Instr.dec w h pix).wellFormed p = true ↔
      (p.wmax.admits w = true ∧ p.hmax.admits h = true) ∧ pix.length = 3 * w * h := by
  simp [Instr.wellFormed, Instr.withinLimits, Instr.lengthsAgree]

end Sys2Proof.Machine
end

