-- ==== Sys2Proof/Laws/PerInstr.lean ====
section
/-! SUPPORT. Statements made per instruction (LAWS.json). `EncodedCode`: the request of an operation carries the operation's own code of R70,
which is never the reserved one (R74). -/

namespace Sys2Proof.Laws.EncodedCode

/-- The request of `i` carries `i`'s code, and that code is not the reserved one. -/
def Statement (i : Instr) : Prop := (encode i).op = i.op ∧ (encode i).op ≠ 0b11#2

theorem bitget (idx n : Nat) (bytes : Space) : Statement (.bitget idx n bytes) :=
  ⟨rfl, show (0b00#2 : BitVec 2) ≠ 0b11#2 by decide⟩

theorem enc (n : Nat) (bytes : Space) : Statement (.enc n bytes) :=
  ⟨rfl, show (0b01#2 : BitVec 2) ≠ 0b11#2 by decide⟩

theorem dec (w h : Nat) (pix : Space) : Statement (.dec w h pix) :=
  ⟨rfl, show (0b10#2 : BitVec 2) ≠ 0b11#2 by decide⟩

end Sys2Proof.Laws.EncodedCode
end

