-- ==== Sys2Proof/Laws/Step.lean ====
section
/-! SUPPORT. Decoding and the step: everything they can do. -/

namespace Sys2Proof

theorem decode_code0 {r : Request} (h : r.op = 0) : decode r = .ok (.bitget r.idx r.n r.bytes) := by simp [decode, h]
theorem decode_code1 {r : Request} (h : r.op = 1) : decode r = .ok (.enc r.n r.bytes) := by simp [decode, h]
theorem decode_code2 {r : Request} (h : r.op = 2) : decode r = .ok (.dec r.w r.h r.pix) := by simp [decode, h]
theorem decode_code3 {r : Request} (h : r.op = 3) : decode r = .error .reservedOp := by simp [decode, h]

/-- The four codes of R70's table are all there are. -/
theorem op_cases (o : BitVec 2) : o = 0 ∨ o = 1 ∨ o = 2 ∨ o = 3 := by
  revert o; decide

end Sys2Proof

namespace Sys2Proof.Machine

theorem step_idle {s : State} (h : s.request = none) : step s = .next s := by simp [step, h]

theorem step_decoded {s : State} {r : Request} {i : Instr} (hr : s.request = some r) (hd : decode r = .ok i) :
    step s = conclude (exec i s) := by simp [step, hr, hd]

theorem step_rejected {s : State} {r : Request} {e : DecodeReject} (hr : s.request = some r) (hd : decode r = .error e) :
    step s = .refused (refusalOf e) := by simp [step, hr, hd]

/-- Everything a step that answers a next state can have done: nothing, when idle; else one operation, whose request it retires. -/
theorem step_next {s t : State} (h : step s = .next t) :
    (s.request = none ∧ t = s) ∨
    ∃ r i u, s.request = some r ∧ decode r = .ok i ∧ exec i s = .next u ∧ t = retire u := by
  cases hr : s.request with
  | none => rw [step_idle hr] at h; cases h; exact .inl ⟨rfl, rfl⟩
  | some r =>
    cases hd : decode r with
    | error e => rw [step_rejected hr hd] at h; cases h
    | ok i =>
      rw [step_decoded hr hd] at h
      obtain ⟨u, hu, rfl⟩ := conclude_eq_next h
      exact .inr ⟨r, i, u, rfl, hd, hu, rfl⟩

end Sys2Proof.Machine
end

