-- ==== Sys2Proof/Laws/Units.lean ====
section
/-! SUPPORT. One spec lemma per helper of the three units (BITGET's function, CH, T, the two loops), which later proofs cite instead of
unfolding. -/

namespace Sys2Proof.Machine

/-- In range, BITGET gives bit `7 − off` of the byte it reads (R83). -/
theorem bitget_inside {idx : Nat} {bytes : Space} {v : Byte} (h : bytes[idx / 8]? = some v) :
    bitget idx bytes = some (v.getLsbD (7 - idx % 8)) := by
  obtain ⟨hlt, hv⟩ := List.getElem?_eq_some_iff.1 h
  have hlt' : byteIndex idx < bytes.length := hlt
  simp only [bitget, dif_pos hlt', memRead]
  rw [← hv]
  rfl

/-- Beyond the sequence, BITGET gives no value (R84). -/
theorem bitget_outside {idx : Nat} {bytes : Space} (h : bytes.length ≤ idx / 8) : bitget idx bytes = none := by
  have h' : ¬ byteIndex idx < bytes.length := by rw [byteIndex_eq]; omega
  simp [bitget, h']

/-- CH of a slot that carries a real bit (R103). -/
theorem ch_real {s : Nat} {bytes : Space} {b : Bit} (h : bitget s bytes = some b) : ch s bytes = levelOf b := by
  simp [ch, h]

/-- CH of a padding slot (R63, R103). -/
theorem ch_padding {s : Nat} {bytes : Space} (h : bitget s bytes = none) : ch s bytes = 0 := by
  simp [ch, h, Config.levelZero]

theorem levelOf_true : levelOf true = 255 := rfl
theorem levelOf_false : levelOf false = 0 := rfl

/-- The threshold undoes the level (R62, R64): `T(255·b) = b`. -/
theorem threshold_levelOf (b : Bit) : threshold (levelOf b) = b := by cases b <;> decide

theorem threshold_eq (v : Byte) : threshold v = decide (127 < v.toNat) := rfl

theorem encFill_append (bytes : Space) (order : List Nat) (x : Nat) :
    encFill bytes (order ++ [x]) = encWrite bytes (encFill bytes order) x := by simp [encFill]

theorem encFill_wf (bytes : Space) (order : List Nat) : Memory.wf (encFill bytes order) = true := by
  induction order using List.reverseRecOn with
  | nil => rfl
  | append_singleton order x ih => rw [encFill_append]; exact memWrite_wf (memWrite_wf (memWrite_wf ih _ _) _ _) _ _

/-- What the loop of R100 leaves in PIX: CH of every slot of the pixels it went through, nothing elsewhere. -/
theorem encFill_read (bytes : Space) (order : List Nat) (s : Nat) :
    Memory.read? (encFill bytes order) s = if s / 3 ∈ order then some (ch s bytes) else none := by
  induction order using List.reverseRecOn with
  | nil => rfl
  | append_singleton order x ih =>
    rw [encFill_append]
    simp only [encWrite, memWrite_read, encPx, slot_eq, ih, List.mem_append, List.mem_singleton]
    by_cases hx : s / 3 = x
    · simp only [hx, or_true, if_true]
      obtain h | h | h : 3 * x + 0 = s ∨ 3 * x + 1 = s ∨ 3 * x + 2 = s := by omega
      all_goals subst h; simp
    · rw [if_neg (by omega), if_neg (by omega), if_neg (by omega)]
      simp [hx]

theorem decFill_append (F : Space) (order : List (Fin (groupCount F.length))) (g : Fin (groupCount F.length)) :
    decFill F (order ++ [g]) = decWrite F (decFill F order) g := by simp [decFill]

theorem decFill_wf (F : Space) (order : List (Fin (groupCount F.length))) : Memory.wf (decFill F order) = true := by
  induction order using List.reverseRecOn with
  | nil => rfl
  | append_singleton order x ih => rw [decFill_append]; exact memWrite_wf ih _ _

/-- What the loop of R120 leaves in OUT at the index of a group: DECBYTE of that group if it went through it, else nothing. -/
theorem decFill_read (F : Space) (order : List (Fin (groupCount F.length))) (g : Fin (groupCount F.length)) :
    Memory.read? (decFill F order) g.val = if g ∈ order then some (decByte F g) else none := by
  induction order using List.reverseRecOn with
  | nil => rfl
  | append_singleton order x ih =>
    rw [decFill_append]
    simp only [decWrite, memWrite_read, ih, List.mem_append, List.mem_singleton]
    by_cases hx : g = x
    · subst hx; simp
    · rw [if_neg (fun h => hx (Fin.ext h.symm))]; simp [hx]

/-- The loop of R120 writes no index that is no group's. -/
theorem decFill_read_beyond (F : Space) (order : List (Fin (groupCount F.length))) {a : Nat} (h : groupCount F.length ≤ a) :
    Memory.read? (decFill F order) a = none := by
  induction order using List.reverseRecOn with
  | nil => rfl
  | append_singleton order x ih =>
    rw [decFill_append]
    simp only [decWrite, memWrite_read, ih]
    rw [if_neg (by have := x.isLt; omega)]

end Sys2Proof.Machine
end

