-- ==== Sys2Proof/Tests/Slice0.lean ====
section
/-! SUPPORT. Tests and witnesses. Expected results are from spec/95_test_vectors.md (the vector's id stands in the comment) or from the rule named;
`witness_<statement>` shows a concrete state and operands that meet the hypotheses of that obligation. -/

namespace Sys2Proof.Tests

open Sys2Proof Sys2Proof.Machine

/-- The finite parameters of spec/95 part 2.5. -/
def finiteParams : Params := ⟨.fin 8, .fin 31, .fin 83, .fin 1⟩

/-- An idle CORE of those parameters. -/
def finite : State := { params := finiteParams, request := none, result := none }

/-- An idle CORE with infinite parameters and request `r` issued. -/
def asked (r : Request) : State := { State.reset with request := some r }

/-- The outcome that only delivers `r`. -/
def delivers (s : State) (r : Result) : Host.Outcome State Fault Refusal := .next { s with result := some r }

theorem finiteParams_valid : finiteParams.valid = true := by decide

/-! ## Decoding: every constructor, from the codes of R70 -/

/-- R70: `00` is BITGET, format Q. -/
theorem test_decode_bitget :
    decode { op := 0b00#2, idx := 11, n := 2, w := 0, h := 0, bytes := [0x3C, 0xF0], pix := [] } =
      .ok (.bitget 11 2 [0x3C, 0xF0]) := rfl
/-- R70: `01` is ENC, format E. -/
theorem test_decode_enc :
    decode { op := 0b01#2, idx := 0, n := 1, w := 0, h := 0, bytes := [0x55], pix := [] } = .ok (.enc 1 [0x55]) := rfl
/-- R70: `10` is DEC, format D. -/
theorem test_decode_dec :
    decode { op := 0b10#2, idx := 0, n := 0, w := 1, h := 1, bytes := [], pix := [1, 2, 3] } = .ok (.dec 1 1 [1, 2, 3]) := rfl
/-- R74: `11` is reserved, whatever the operands (F7). -/
theorem test_decode_reserved :
    decode { op := 0b11#2, idx := 0, n := 32, w := 0, h := 0, bytes := [], pix := [] } = .error .reservedOp := rfl
/-- R78: the match values of the table's rows, as words of one byte. -/
theorem test_table_words :
    decodeTableWord 8 0x0 = some (.bitget 0 0 []) ∧ decodeTableWord 8 0x1 = some (.enc 0 []) ∧
    decodeTableWord 8 0x2 = some (.dec 0 0 []) ∧ decodeTableWord 8 0x3 = none := by decide
/-- A word placed where the next step looks is the operation that step performs, from reset. -/
theorem test_fetch_word_runs :
    step (State.reset.withFetchWord 8 0x0) = delivers State.reset (.bit none) ∧
    step (State.reset.withFetchWord 8 0x1) = delivers State.reset (.image 0 1 []) ∧
    step (State.reset.withFetchWord 8 0x2) = delivers State.reset (.bytes 0 []) := ⟨rfl, rfl, rfl⟩

/-! ## WellFormed: an ill-formed term for each check (spec/95 part 2.5, with the nearest accepted term) -/

/-- F2: `idx ≥ 2^IDXW`. -/
theorem smoke_idx_too_wide : (Instr.bitget 256 1 [0xA5]).wellFormed finiteParams = false ∧
    (Instr.bitget 255 1 [0xA5]).wellFormed finiteParams = true ∧
    exec (.bitget 256 1 [0xA5]) finite = .refused .overLimit := ⟨by decide, by decide, rfl⟩
/-- `N > NMAX` of BITGET (R11). -/
theorem smoke_bitget_too_many_bytes : (Instr.bitget 0 32 (List.replicate 32 0)).wellFormed finiteParams = false := by decide
/-- F3: `N > NMAX` of ENC. -/
theorem smoke_enc_too_many_bytes : (Instr.enc 32 (List.replicate 32 0)).wellFormed finiteParams = false ∧
    (Instr.enc 31 (List.replicate 31 0)).wellFormed finiteParams = true := by decide
/-- As F4, at the smallest parameters with `NMAX = 1` (R10): `W > WMAX`. -/
theorem smoke_dec_too_wide : (Instr.dec 4 1 (List.replicate 12 0)).wellFormed ⟨.fin 4, .fin 1, .fin 3, .fin 1⟩ = false ∧
    (Instr.dec 3 1 (List.replicate 9 0)).wellFormed ⟨.fin 4, .fin 1, .fin 3, .fin 1⟩ = true := by decide
/-- F5: `H > HMAX`. -/
theorem smoke_dec_too_high : (Instr.dec 3 2 (List.replicate 18 0)).wellFormed finiteParams = false := by decide
/-- F6: `len(PIX) ≠ 3·W·H`. -/
theorem smoke_dec_bad_length : (Instr.dec 3 1 (List.replicate 8 0)).wellFormed finiteParams = false ∧
    exec (.dec 3 1 (List.replicate 8 0)) finite = .refused .badLength := ⟨by decide, rfl⟩
/-- R71: `len(BYTES) ≠ N`, for BITGET and ENC. -/
theorem smoke_bytes_bad_length : (Instr.bitget 0 2 [0xA5]).wellFormed finiteParams = false ∧
    (Instr.enc 0 [0xA5]).wellFormed finiteParams = false := by decide
/-- R10: each constraint on the parameters, broken alone. -/
theorem smoke_params : (⟨.fin 3, .fin 1, .inf, .inf⟩ : Params).valid = false ∧ (⟨.fin 8, .fin 0, .inf, .inf⟩ : Params).valid = false ∧
    (⟨.fin 8, .fin 32, .inf, .inf⟩ : Params).valid = false ∧ (⟨.fin 8, .inf, .inf, .inf⟩ : Params).valid = false ∧
    (⟨.fin 8, .fin 31, .fin 82, .inf⟩ : Params).valid = false ∧ (⟨.inf, .inf, .fin 5, .inf⟩ : Params).valid = false ∧
    (⟨.fin 8, .fin 31, .fin 83, .fin 0⟩ : Params).valid = false := by decide

/-! ## The operations -/

/-- B20: bit 3 from the top of the second byte. -/
theorem test_bitget_second_byte : exec (.bitget 11 2 [0x3C, 0xF0]) State.reset = delivers State.reset (.bit (some true)) := rfl
/-- B9 and B23: the first absent index against a real 0 bit. -/
theorem test_bitget_none_is_not_zero : exec (.bitget 8 1 [0xA5]) State.reset = delivers State.reset (.bit none) ∧
    exec (.bitget 3 1 [0x00]) State.reset = delivers State.reset (.bit (some false)) := ⟨rfl, rfl⟩
/-- E8: two bytes, two padding slots. -/
theorem test_enc_two_bytes : exec (.enc 2 [0x48, 0x69]) State.reset = delivers State.reset
    (.image 6 1 (flatten [[⟨0, 255, 0⟩, ⟨0, 255, 0⟩, ⟨0, 0, 0⟩, ⟨255, 255, 0⟩, ⟨255, 0, 0⟩, ⟨255, 0, 0⟩]])) := rfl
/-- E3: the padding slot stays 0 beside data of all ones. -/
theorem test_enc_padding : exec (.enc 1 [0xFF]) State.reset = delivers State.reset
    (.image 3 1 (flatten [[⟨255, 255, 255⟩, ⟨255, 255, 255⟩, ⟨255, 255, 0⟩]])) := rfl
/-- DV6: values on both sides of the threshold; the ninth is dropped. -/
theorem test_dec_threshold : exec (.dec 3 1 [128, 127, 0, 255, 200, 100, 129, 126, 77]) State.reset =
    delivers State.reset (.bytes 1 [0x9A]) := rfl
/-- DV12: height 2, a group across the row boundary, two values dropped. -/
theorem test_dec_two_rows : exec (.dec 3 2 (flatten [[⟨255, 0, 0⟩, ⟨0, 255, 10⟩, ⟨245, 3, 130⟩], [⟨127, 128, 0⟩, ⟨0, 0, 255⟩, ⟨255, 255, 9⟩]]))
    State.reset = delivers State.reset (.bytes 2 [0x8A, 0xA3]) := rfl

/-- What a run of lines binds a name to. -/
def bound (x : Except LineStop (Bindings × State)) (v : Var) : Option Value :=
  match x with
  | .ok (env, _) => env.value? v
  | .error _ => none

/-- P1: RT of "Hi" gives "Hi" back. -/
theorem test_rt_line : bound (runLines (pseudoRt (.lit [0x48, 0x69]) 0 1 2 3 4) [] .reset) 4 = some (.seq [0x48, 0x69]) := by decide
/-- P3 line 5: a value moved across the midpoint by the host flips one bit. -/
theorem test_host_line : bound (runLines [.host 0 (.seq [41, 127, 41, 41, 41, 41, 41, 218, 41]), .dec (.lit 3) (.lit 1) (.var 0) 1 2] [] .reset) 2 =
    some (.seq [0x01]) := by decide

/-! ## Witnesses -/

/-- Operands of BITGET, ENC and DEC as requests. -/
def askBitget : Request := { Request.ofCode 0 with idx := 1, n := 1, bytes := [0x55] }
def askReserved : Request := Request.ofCode 3

theorem witness_ResetLeavesIdleAndNoTrace : decode askBitget = .ok (.bitget 1 1 [0x55]) := rfl
theorem witness_IdleStepChangesNothing : finite.request = none := rfl
theorem witness_StepRunsDecodedOperation_next :
    (asked askBitget).request = some askBitget ∧ decode askBitget = .ok (.bitget 1 1 [0x55]) ∧
    exec (.bitget 1 1 [0x55]) (asked askBitget) = delivers (asked askBitget) (.bit (some true)) := ⟨rfl, rfl, rfl⟩
theorem witness_StepRunsDecodedOperation_refused :
    (asked (encode (.enc 2 [0x55]))).request = some (encode (.enc 2 [0x55])) ∧ decode (encode (.enc 2 [0x55])) = .ok (.enc 2 [0x55]) ∧
    exec (.enc 2 [0x55]) (asked (encode (.enc 2 [0x55]))) = .refused .badLength := ⟨rfl, rfl, rfl⟩
theorem witness_ReservedCodeIsRefused : (asked askReserved).request = some askReserved ∧ askReserved.op = 0b11#2 := ⟨rfl, rfl⟩
theorem witness_RefusalReasonsAreExact_reserved : (asked askReserved).request = some askReserved ∧
    step (asked askReserved) = .refused .reservedOp := ⟨rfl, rfl⟩
/-- At the limit's boundary: `idx = 2^IDXW` is refused, `idx = 2^IDXW − 1` is not. -/
theorem witness_RefusalReasonsAreExact_limit :
    step { finite with request := some (encode (.bitget 256 1 [0x55])) } = .refused .overLimit ∧
    step { finite with request := some (encode (.bitget 255 1 [0x55])) } = delivers finite (.bit none) := ⟨rfl, rfl⟩
/-- Over a limit and of a wrong length: the first reason in R164's order is reported; within the limit, the second. -/
theorem witness_RefusalReasonsAreExact_length :
    step { finite with request := some (encode (.dec 84 1 [])) } = .refused .overLimit ∧
    step { finite with request := some (encode (.dec 83 1 [])) } = .refused .badLength := ⟨rfl, rfl⟩
theorem witness_ExactlyWellFormedOperationsComplete : (Instr.dec 1 1 [1, 2, 3]).wellFormed finite.params = true := by decide
theorem witness_ResultDependsOnOperandsAlone : State.reset.params = (asked askBitget).params ∧
    exec (.enc 0 []) State.reset = delivers State.reset (.image 0 1 []) := ⟨rfl, rfl⟩
theorem witness_OperationsLeaveOperandsAndParameters :
    exec (.bitget 1 1 [0x55]) (asked askBitget) = delivers (asked askBitget) (.bit (some true)) ∧
    (asked askBitget).request = some askBitget := ⟨rfl, rfl⟩
theorem witness_RefusalLeavesEverythingUnchanged : step (asked askReserved) = .refused .reservedOp ∧
    step (asked askBitget) = delivers State.reset (.bit (some true)) := ⟨rfl, rfl⟩
theorem witness_HostWaitsForTheEnd : (asked askBitget).request = some askBitget := rfl
/-- For each code, a request whose fields of other formats are not empty. -/
def askWithForeignFields (op : BitVec 2) : Request := { op := op, idx := 3, n := 1, w := 1, h := 1, bytes := [0x55], pix := [1, 2, 3] }
theorem witness_EncodeReadsBackDecode_Q : decode (askWithForeignFields 0b00#2) = .ok (.bitget 3 1 [0x55]) := rfl
theorem witness_EncodeReadsBackDecode_E : decode (askWithForeignFields 0b01#2) = .ok (.enc 1 [0x55]) := rfl
theorem witness_EncodeReadsBackDecode_D : decode (askWithForeignFields 0b10#2) = .ok (.dec 1 1 [1, 2, 3]) := rfl
/-- The three residues, each at its least byte count (R101: widths 0, 3, 6 for 0, 1, 2 bytes). -/
theorem witness_WidthAndPaddingByResidue : 0 % 3 = 0 ∧ encWidth 0 = 0 ∧ 1 % 3 = 1 ∧ encWidth 1 = 3 ∧ 2 % 3 = 2 ∧ encWidth 2 = 6 := by decide
/-- Two rows of one pixel; the last pixel of the last row. -/
theorem witness_FlattenIsRowMajor :
    (∀ row ∈ ([[⟨1, 2, 3⟩], [⟨4, 5, 6⟩]] : List (List Pixel)), row.length = 1) ∧
    ([[⟨1, 2, 3⟩], [⟨4, 5, 6⟩]] : List (List Pixel))[1]? = some [⟨4, 5, 6⟩] ∧
    ([⟨4, 5, 6⟩] : List Pixel)[0]? = some ⟨4, 5, 6⟩ := by decide
/-- In range at the last index `8·N − 1`, out of range at the first absent one `8·N`. -/
theorem witness_BitgetCompletesWithIndexedBit :
    finite.params.idxw.holdsBits 15 = true ∧ finite.params.idxw.holdsBits 16 = true ∧ finite.params.nmax.admits 2 = true ∧
    ([0x80, 0x01] : Space).length = 2 ∧ ([0x80, 0x01] : Space)[15 / 8]? = some 0x01 ∧ 2 ≤ 16 / 8 := by decide
theorem witness_BitgetIsSomeExactlyInRange :
    exec (.bitget 15 2 [0x80, 0x01]) finite = delivers finite (.bit (some true)) ∧
    exec (.bitget 16 2 [0x80, 0x01]) finite = delivers finite (.bit none) := ⟨rfl, rfl⟩
theorem witness_BitgetBeyondEndIsNoValue : finite.params.idxw.holdsBits 8 = true ∧ finite.params.nmax.admits 1 = true ∧
    ([0x55] : Space).length = 1 ∧ 8 * 1 ≤ 8 := by decide
theorem witness_BytesRebuiltFromTheirBits : ([0x80, 0x01] : Space)[1]? = some 0x01 := by decide
theorem witness_BitgetReadsAtMostOneByte : ([0x80, 0x01] : Space).length = ([0x7F, 0x01] : Space).length ∧
    ([0x80, 0x01] : Space)[15 / 8]? = ([0x7F, 0x01] : Space)[15 / 8]? := by decide
theorem witness_ResultFieldsStandForOptionalBit : (some true : Option Bit) = some true := rfl
theorem witness_ChannelValueOfSlot : bitget 7 [0x55] = some true ∧ bitget 8 [0x55] = none := by decide
/-- The last real slot `8·N − 1`, the first and the last padding slot. -/
theorem witness_EncCompletesWithAssembledBuffer : finite.params.nmax.admits 2 = true ∧ ([0x48, 0x69] : Space).length = 2 ∧
    15 < 8 * 2 ∧ ([0x48, 0x69] : Space)[15 / 8]? = some 0x69 ∧ 8 * 2 ≤ 16 ∧ 17 < 3 * ((8 * 2 + 2) / 3) := by decide
theorem witness_EncoderOutputShape : exec (.enc 1 [0x80]) finite = delivers finite (.image 3 1 [255, 0, 0, 0, 0, 0, 0, 0, 0]) ∧
    8 * 1 ≤ 8 ∧ 8 < 3 * 3 := ⟨rfl, by decide, by decide⟩
/-- The last real slot and the padding slot of one byte. -/
theorem witness_EncoderIndicesAndPadding : 7 < 3 * encWidth ([0x55] : Space).length ∧ 8 < 3 * encWidth ([0x55] : Space).length ∧
    bitget 8 [0x55] = none := by decide
theorem witness_EncoderOrderIsUnobservable : [2, 0, 1].Perm (List.range (encWidth ([0x55] : Space).length)) := by decide
theorem witness_EncoderWritesEverySlot : 2 < encWidth ([0x55] : Space).length := by decide
theorem witness_EncoderStaysWithinParameters : finiteParams.valid = true ∧ finiteParams.nmax.admits 31 = true ∧
    248 < 3 * encWidth 31 := by decide
theorem witness_EncodingOf0x55 : finite.params.nmax.admits 1 = true := by decide
/-- The last group's last position at `L = 9`, one trailing value. -/
theorem witness_DecCompletesWithGroups : finite.params.wmax.admits 3 = true ∧ finite.params.hmax.admits 1 = true ∧
    ([255, 255, 255, 255, 0, 0, 0, 0, 255] : Space).length = 3 * 3 * 1 ∧ 0 < 3 * 3 * 1 / 8 ∧ 7 < 8 := by decide
theorem witness_ShortRasterDecodesToNothing : finite.params.wmax.admits 2 = true ∧ finite.params.hmax.admits 1 = true ∧
    ([255, 255, 255, 255, 255, 255] : Space).length = 3 * 2 * 1 ∧ 3 * 2 * 1 < 8 := by decide
theorem witness_DecodingIgnoresShape : 1 * 3 = 3 * 1 ∧ State.reset.params.wmax.admits 3 = true ∧
    State.reset.params.hmax.admits 1 = true ∧
    exec (.dec 1 3 [255, 255, 255, 255, 0, 0, 0, 0, 255]) State.reset = delivers State.reset (.bytes 1 [0xF0]) :=
  ⟨rfl, rfl, rfl, rfl⟩
/-- One complete group whose values differ below the top bit, and a trailing value that differs in it. -/
theorem witness_DecodingSeesOnlyTopBitsOfGroups :
    ([255, 0, 255, 0, 255, 0, 255, 0, 255] : Space).length = ([128, 127, 200, 1, 129, 2, 130, 3, 0] : Space).length ∧
    ∀ (j : Nat) (u u' : Byte), j < 8 * (3 * 3 * 1 / 8) → ([255, 0, 255, 0, 255, 0, 255, 0, 255] : Space)[j]? = some u →
      ([128, 127, 200, 1, 129, 2, 130, 3, 0] : Space)[j]? = some u' → u.getLsbD 7 = u'.getLsbD 7 := by
  refine ⟨rfl, fun j u u' hj h h' => ?_⟩
  have hj' : j < 8 := hj
  interval_cases j <;> (cases h; cases h'; rfl)
theorem witness_DecoderOrderIsUnobservable :
    (List.finRange (groupCount (List.replicate 18 (0 : Byte)).length)).reverse.Perm
      (List.finRange (groupCount (List.replicate 18 (0 : Byte)).length)) := List.reverse_perm _
theorem witness_EqualReadsMeanEqualMemory : Memory.wf [(0, 7), (2, 9)] = true ∧ Memory.wf (memWrite [(2, 9)] 0 7) = true ∧
    ∀ a, Memory.read? [(0, 7), (2, 9)] a = Memory.read? (memWrite [(2, 9)] 0 7) a := ⟨rfl, rfl, fun _ => rfl⟩
theorem witness_RoundTripForEveryInput : finite.params.valid = true ∧ finite.params.nmax.admits 2 = true ∧
    ([0x48, 0x69] : Space).length = 2 := by decide
theorem witness_EmptyInputRoundTrip : finite.params.hmax.admits 1 = true := by decide
/-- One byte, its image, and the same image with every 255 lowered to 128 and every 0 raised to 127. -/
theorem witness_NoisyImageDecodesToInput : finite.params.valid = true ∧
    exec (.enc 1 [0x80]) finite = delivers finite (.image 3 1 [255, 0, 0, 0, 0, 0, 0, 0, 0]) ∧
    ([128, 127, 127, 127, 127, 127, 127, 127, 127] : Space).length = ([255, 0, 0, 0, 0, 0, 0, 0, 0] : Space).length ∧
    ∀ (j : Nat) (u u' : Byte), ([255, 0, 0, 0, 0, 0, 0, 0, 0] : Space)[j]? = some u →
      ([128, 127, 127, 127, 127, 127, 127, 127, 127] : Space)[j]? = some u' →
      (u = 255 → 128 ≤ u'.toNat) ∧ (u = 0 → u'.toNat ≤ 127) := by
  refine ⟨by decide, rfl, rfl, fun j u u' h h' => ?_⟩
  obtain ⟨hj, _⟩ := List.getElem?_eq_some_iff.1 h
  have hj' : j < 9 := hj
  interval_cases j <;> (cases h; cases h'; decide)
/-- The last value of the group, changed from 0 to 128. -/
theorem witness_CrossingTheMidpointFlipsTheBit : (List.replicate 9 (0 : Byte))[7]? = some 0 ∧
    (0 : Byte).getLsbD 7 ≠ (128 : Byte).getLsbD 7 ∧ (decOut (List.replicate 9 0))[7 / 8]? = some 0 := by decide
/-- One pixel of the three removed, and all three. -/
theorem witness_CutImageLosesTrailingBytes : finite.params.valid = true ∧
    exec (.enc 1 [0x80]) finite = delivers finite (.image 3 1 [255, 0, 0, 0, 0, 0, 0, 0, 0]) ∧ 1 ≤ 3 ∧ 3 ≤ 3 :=
  ⟨by decide, rfl, by decide, by decide⟩
/-- Three pixels appended: 18 values, so one extra byte. -/
theorem witness_AppendedPixelsAddWholeGroups : finite.params.valid = true ∧
    exec (.enc 1 [0x80]) finite = delivers finite (.image 3 1 [255, 0, 0, 0, 0, 0, 0, 0, 0]) ∧
    (List.replicate 9 (255 : Byte)).length = 3 * 3 ∧ finite.params.wmax.admits (3 + 3) = true :=
  ⟨by decide, rfl, rfl, by decide⟩
theorem witness_EncIsNoInverseOfDec : finite.params.wmax.admits 1 = true ∧ finite.params.hmax.admits 1 = true := by decide
/-- The operand written out, and as the name 7 (P1: `ENC B`). -/
theorem witness_RtLinesGiveTheInputBack : finite.request = none ∧ finite.params.valid = true ∧
    finite.params.nmax.admits ([0x48, 0x69] : Space).length = true ∧ ([0, 1, 2, 3, 4] : List Var).Nodup ∧
    (SeqArg.lit [0x48, 0x69]).value? [] = some [0x48, 0x69] ∧
    (SeqArg.var 7).value? [(7, .seq [0x48, 0x69])] = some [0x48, 0x69] := by decide
theorem witness_BitsLinesGiveEveryBit : finite.request = none ∧ finite.params.nmax.admits ([0x80, 0x01] : Space).length = true ∧
    (∀ j, j < 18 → finite.params.idxw.holdsBits j = true) ∧
    (SeqArg.lit [0x80, 0x01]).value? [] = some [0x80, 0x01] := by decide
/-- The operand as the name 18, the first that is no result's name (P2: `BITGET j, B -> rj` for `j` = 0 to 17). -/
theorem witness_BitsLinesGiveEveryBit_named : (SeqArg.var 18).value? [(18, .seq [0x80, 0x01])] = some [0x80, 0x01] ∧
    ∀ x, SeqArg.var 18 = .var x → ∀ j : Nat, j < 18 → x ≠ 0 + j := by
  refine ⟨by decide, fun x hx j hj => ?_⟩
  cases hx
  exact fun h => absurd (show (18 : Nat) = 0 + j from h) (by omega)
/-- A state that meets the invariant with an encoder image delivered and the decoder's request issued, and the step it takes. -/
def imageThenDec : State :=
  { params := finiteParams, request := some (encode (.dec 3 1 [255, 0, 0, 0, 0, 0, 0, 0, 0])),
    result := some (.image 3 1 [255, 0, 0, 0, 0, 0, 0, 0, 0]) }
theorem witness_EveryStepKeepsTheInvariant : imageThenDec.Inv ∧
    step imageThenDec = .next { finite with result := some (.bytes 1 [0x80]) } := by
  refine ⟨⟨by decide, fun r h => ?_⟩, rfl⟩
  cases h
  refine ⟨1, by decide, rfl, rfl, by decide, rfl, by decide, fun s h1 h2 => ?_⟩
  obtain rfl : s = 8 := by omega
  rfl
theorem witness_HostMovesKeepTheInvariant : finite.Inv ∧ finite.issue askBitget = some { finite with request := some askBitget } ∧
    State.collect { finite with result := some (.bit none) } = some (.bit none, finite) ∧
    State.dropRefused { finite with request := some askReserved } = some finite := by
  refine ⟨⟨by decide, fun r h => ?_⟩, rfl, rfl, rfl⟩
  cases h

end Sys2Proof.Tests
end

/-! PROOFS. The contents of a finished output space, the parameter bounds of the encoder, and the invariant of the model:
the statements of spec/00_scope.md. -/

namespace Sys2Proof.Machine

/-! ## The content of an output space in canonical form -/

theorem memory_wf_iff_pairwise (M : Memory) : Memory.wf M = true ↔ M.Pairwise (fun c d => c.1 < d.1) := by
  induction M with
  | nil => simp [Memory.wf]
  | cons c rest ih => rw [memory_wf_cons, ih, List.pairwise_cons]

/-- In canonical form a read finds exactly the cells that are listed. -/
theorem memory_read_eq_some_iff_mem {M : Memory} (hM : Memory.wf M = true) (a : Nat) (v : Byte) :
    Memory.read? M a = some v ↔ (a, v) ∈ M := by
  induction M with
  | nil => simp
  | cons c rest ih =>
    obtain ⟨b, u⟩ := c
    obtain ⟨hb, hrest⟩ := (memory_wf_cons b u rest).1 hM
    rw [memory_cons_read, List.mem_cons]
    split
    · next hba =>
      subst hba
      have hnot : (b, v) ∉ rest := fun hmem => lt_irrefl b (hb _ hmem)
      simp [hnot, eq_comm]
    · next hba => simp [ih hrest, Ne.symm hba]

/-- A space in canonical form is the rising list of exactly the cells its reads find. -/
theorem memory_eq_of_read_iff_mem {M M' : Memory} (hM : Memory.wf M = true) (hM' : Memory.wf M' = true)
    (h : ∀ a v, Memory.read? M a = some v ↔ (a, v) ∈ M') : M = M' := by
  have irrefl : Std.Irrefl fun c d : Host.Cell => c.1 < d.1 := ⟨fun c => lt_irrefl c.1⟩
  have antisymm : Std.Antisymm fun c d : Host.Cell => c.1 < d.1 := ⟨fun _ _ h1 h2 => absurd h2 h1.asymm⟩
  refine List.Pairwise.eq_of_mem_iff ((memory_wf_iff_pairwise M).1 hM) ((memory_wf_iff_pairwise M').1 hM') ?_
  rintro ⟨a, v⟩
  rw [← memory_read_eq_some_iff_mem hM, h]

/-! ## The finished outputs of ENC and DEC -/

/-- Over the positions `0` to `w - 1` the loop of R100 leaves CH of every slot, in order (R104, R105). -/
theorem encFill_range (bytes : Space) (w : Nat) :
    encFill bytes (List.range w) = (List.range (3 * w)).map fun s => (s, ch s bytes) := by
  refine memory_eq_of_read_iff_mem (encFill_wf bytes _) ?_ fun a v => ?_
  · rw [memory_wf_iff_pairwise, List.pairwise_map]
    exact List.pairwise_lt_range
  · have hpos : a / 3 < w ↔ a < 3 * w := by omega
    simp [encFill_read, hpos]

theorem encOut_eq_map_ch (bytes : Space) :
    encOut bytes = (List.range (3 * encWidth bytes.length)).map fun s => ch s bytes := by
  simp [encOut, encFill_range, Memory.seq]

/-- Over all groups the loop of R120 leaves DECBYTE of every group, in order (R127). -/
theorem decFill_finRange (F : Space) :
    decFill F (List.finRange (groupCount F.length)) =
      (List.finRange (groupCount F.length)).map fun g => (g.val, decByte F g) := by
  refine memory_eq_of_read_iff_mem (decFill_wf F _) ?_ fun a v => ?_
  · rw [memory_wf_iff_pairwise, List.pairwise_map]
    exact List.pairwise_lt_finRange _
  · by_cases ha : a < groupCount F.length
    · obtain ⟨g, rfl⟩ : ∃ g : Fin (groupCount F.length), g.val = a := ⟨⟨a, ha⟩, rfl⟩
      simp [decFill_read, Fin.val_inj]
    · rw [decFill_read_beyond F _ (not_lt.1 ha)]
      have hnot : ∀ g : Fin (groupCount F.length), g.val ≠ a := fun g hg => ha (hg ▸ g.isLt)
      simp [hnot]

theorem decOut_eq_map_decByte (F : Space) :
    decOut F = (List.finRange (groupCount F.length)).map (decByte F) := by
  simp [decOut, decFill_finRange, Memory.seq]

@[simp] theorem encOut_length (bytes : Space) : (encOut bytes).length = 3 * encWidth bytes.length := by
  simp [encOut_eq_map_ch]

@[simp] theorem decOut_length (F : Space) : (decOut F).length = groupCount F.length := by
  simp [decOut_eq_map_decByte]

/-- A channel value the encoder writes is one of the two levels (R62, R103). -/
theorem ch_eq_zero_or_max (s : Nat) (bytes : Space) : ch s bytes = 0 ∨ ch s bytes = 255 := by
  cases hb : bitget s bytes with
  | none => exact .inl (ch_padding hb)
  | some b =>
    rw [ch_real hb]
    cases b with
    | false => exact .inl levelOf_false
    | true => exact .inr levelOf_true

theorem encOut_getElem? {bytes : Space} {s : Nat} (h : s < 3 * encWidth bytes.length) :
    (encOut bytes)[s]? = some (ch s bytes) := by
  simp [encOut_eq_map_ch, h]

/-- Every slot past the last bit is a padding slot and holds 0 (R63). -/
theorem encOut_padding {bytes : Space} {s : Nat} (hpad : 8 * bytes.length ≤ s)
    (hs : s < 3 * encWidth bytes.length) : (encOut bytes)[s]? = some 0 := by
  have hout : bytes.length ≤ s / 8 := by omega
  rw [encOut_getElem? hs, ch_padding (bitget_outside hout)]

/-! ## The encoder within valid parameters -/

/-- Every index ENC forms lies below `8·NMAX + 2`, which R10 makes fit in IDXW bits. -/
theorem idxw_holdsBits_of_lt_slots {p : Params} {n j : Nat} (hp : p.nmaxValid = true)
    (hn : p.nmax.admits n = true) (hj : j < 3 * encWidth n) : p.idxw.holdsBits j = true := by
  obtain ⟨idxw, nmax, wmax, hmax⟩ := p
  rw [encWidth_eq] at hj
  cases idxw with
  | inf => rfl
  | fin w =>
    cases nmax with
    | inf => simp [Params.nmaxValid] at hp
    | fin m =>
      obtain ⟨-, hfits⟩ : 1 ≤ m ∧ 8 * m + 2 ≤ 2 ^ w := by simpa [Params.nmaxValid] using hp
      have hnm : n ≤ m := by simpa using hn
      simp only [bound_fin_holdsBits]
      omega

/-- The width grows with the byte count, and R10 puts that of NMAX bytes within WMAX. -/
theorem wmax_admits_encWidth {p : Params} {n : Nat} (hp : p.wmaxValid = true)
    (hn : p.nmax.admits n = true) : p.wmax.admits (encWidth n) = true := by
  obtain ⟨idxw, nmax, wmax, hmax⟩ := p
  cases wmax with
  | inf => rfl
  | fin k =>
    cases nmax with
    | inf => simp [Params.wmaxValid] at hp
    | fin m =>
      have hk : encWidth m ≤ k := of_decide_eq_true hp
      have hnm : n ≤ m := by simpa using hn
      simp only [bound_fin_admits]
      rw [encWidth_eq] at hk ⊢
      omega

theorem params_valid_iff {p : Params} :
    p.valid = true ↔
      p.idxwValid = true ∧ p.nmaxValid = true ∧ p.wmaxValid = true ∧ p.hmaxValid = true := by
  simp [Params.valid, and_assoc]

/-! ## The invariant -/

/-- What ENC hands over is an encoder image of its operand (R32, R105). -/
theorem encoderImage_encOut {p : Params} (hp : p.valid = true) {bytes : Space}
    (hn : p.nmax.admits bytes.length = true) :
    encoderImage p bytes.length (encWidth bytes.length) Config.encHeight (encOut bytes) := by
  obtain ⟨-, -, hwmax, -⟩ := params_valid_iff.1 hp
  refine ⟨rfl, rfl, wmax_admits_encWidth hwmax hn, encOut_length bytes, fun v hv => ?_, fun s => encOut_padding⟩
  rw [encOut_eq_map_ch] at hv
  obtain ⟨s, -, rfl⟩ := List.mem_map.1 hv
  exact ch_eq_zero_or_max s bytes

/-- At valid parameters an operation that completes delivers a result of its shape, and does nothing else. -/
theorem exec_delivers_shaped {i : Instr} {s t : State} (hp : s.params.valid = true) (h : exec i s = .next t) :
    ∃ r, t = deliver r s ∧ r.shaped s.params := by
  cases i with
  | bitget idx n bytes =>
    obtain ⟨-, -, rfl⟩ := perform_next h
    exact ⟨_, rfl, trivial⟩
  | enc n bytes =>
    obtain ⟨hlimit, hlen, rfl⟩ := perform_next h
    obtain rfl := badLength_eq_false.1 hlen
    have hn := overLimitE_eq_false.1 hlimit
    exact ⟨_, rfl, bytes.length, hn, encoderImage_encOut hp hn⟩
  | dec w h' pix =>
    obtain ⟨hlimit, hlen, rfl⟩ := perform_next h
    obtain ⟨hw, hh⟩ := overLimitD_eq_false.1 hlimit
    have hout : (decOut pix).length = groupCount (streamLen w h') := by
      rw [decOut_length, badLength_eq_false.1 hlen]
    exact ⟨_, rfl, hout, w, h', hw, hh, rfl⟩

theorem inv_deliver {s : State} {r : Result} (hp : s.params.valid = true) (hr : r.shaped s.params) :
    (deliver r s).Inv := by
  refine ⟨hp, fun r' h => ?_⟩
  cases h
  exact hr

/-- The invariant does not speak of the request. -/
theorem inv_retire {s : State} (h : s.Inv) : (retire s).Inv := h

/-! ## The obligations -/

/-- Settles O30: the bounds of R10 on IDXW and on WMAX, each for the largest admitted byte count. -/
theorem encoderStaysWithinParameters : Obligations.EncoderStaysWithinParameters := by
  intro p n hp hn
  obtain ⟨-, hnmax, hwmax, -⟩ := params_valid_iff.1 hp
  exact ⟨fun _ hj => idxw_holdsBits_of_lt_slots hnmax hn hj, wmax_admits_encWidth hwmax hn⟩

/-- Settles O50: infinite parameters are valid, and no result is pending. -/
theorem resetMeetsTheInvariant : Obligations.ResetMeetsTheInvariant := by
  refine ⟨rfl, fun r h => ?_⟩
  cases h

/-- Settles O51: an idle step changes nothing, and any other delivers a shaped result and retires its request. -/
theorem everyStepKeepsTheInvariant : Obligations.EveryStepKeepsTheInvariant := by
  intro s t hs hstep
  obtain ⟨-, rfl⟩ | ⟨r, i, u, -, -, hexec, rfl⟩ := step_next hstep
  · exact ⟨hs, rfl⟩
  · have hp : s.params.valid = true := hs.1
    obtain ⟨res, rfl, hshaped⟩ := exec_delivers_shaped hp hexec
    exact ⟨inv_retire (inv_deliver hp hshaped), rfl⟩

end Sys2Proof.Machine

/-! PROOFS. What the step makes of an operation, and what an operation reads and leaves unchanged: the statements of
spec/10_state.md. -/

namespace Sys2Proof.Machine

/-- An operation sees of the state nothing but the parameters, and those only to admit or refuse it: what it delivers
is fixed by its operands (R20). -/
theorem exec_eq_perform (i : Instr) :
    ∃ (tooLarge : Params → Bool) (badLen : Bool) (r : Result),
      ∀ s : State, exec i s = perform (tooLarge s.params) badLen r s := by
  cases i with
  | bitget idx n bytes =>
    exact ⟨fun p => overLimitQ p idx n, badLength bytes n, .bit (bitget idx bytes), fun _ => rfl⟩
  | enc n bytes =>
    exact ⟨fun p => overLimitE p n, badLength bytes n,
      .image (encWidth n) Config.encHeight (encOut bytes), fun _ => rfl⟩
  | dec w h pix =>
    exact ⟨fun p => overLimitD p w h, badLength pix (streamLen w h),
      .bytes (groupCount (streamLen w h)) (decOut pix), fun _ => rfl⟩

/-! ## The obligations -/

/-- Settles O3: the step is the decoded operation with `conclude` around it. -/
theorem stepRunsDecodedOperation : Obligations.StepRunsDecodedOperation := by
  intro s r i hr hd
  rw [step_decoded hr hd]
  refine ⟨fun t hnext => ?_, fun q hrefused => ?_⟩
  · rw [hnext, conclude_next]
    rfl
  · rw [hrefused, conclude_refused]

/-- Settles O8: equal parameters admit the operation from both states, and its result is the same. -/
theorem resultDependsOnOperandsAlone : Obligations.ResultDependsOnOperandsAlone := by
  intro i s s' t hparams h
  obtain ⟨tooLarge, badLen, r, hexec⟩ := exec_eq_perform i
  rw [hexec] at h ⊢
  obtain ⟨hlimit, hlen, rfl⟩ := perform_next h
  rw [hparams] at hlimit
  exact perform_admitted hlimit hlen r s'

/-- Settles O9: an operation that completes only delivers, so the request after it is the request before it. -/
theorem operationsLeaveOperandsAndParameters : Obligations.OperationsLeaveOperandsAndParameters := by
  intro i s t h
  obtain ⟨-, res, rfl⟩ := exec_next h
  refine ⟨rfl, rfl, fun r r' hr hr' a => ?_⟩
  rw [deliver_request, hr] at hr'
  cases hr'
  exact ⟨rfl, rfl⟩

end Sys2Proof.Machine

/-! PROOFS. What an output space holds decides what it is, so the order of the writes leaves no trace; and the bytes an
operation reads and writes: the statements of spec/20_memory.md. -/

namespace Sys2Proof.Machine

/-! ## Spaces that read alike -/

/-- The canonical form is extensional: reads at every address determine the space (log 5). -/
theorem memory_ext {M M' : Memory} (hM : Memory.wf M = true) (hM' : Memory.wf M' = true)
    (h : ∀ a, Memory.read? M a = Memory.read? M' a) : M = M' :=
  memory_eq_of_read_iff_mem hM hM' fun a v => by rw [h, memory_read_eq_some_iff_mem hM']

/-! ## The filled spaces depend on the set of turns alone -/

/-- What the loop of R100 leaves depends on which positions it went through, not on their order (R112). -/
theorem encFill_congr (bytes : Space) {order order' : List Nat} (h : ∀ x, x ∈ order ↔ x ∈ order') :
    encFill bytes order = encFill bytes order' :=
  memory_ext (encFill_wf bytes order) (encFill_wf bytes order') fun s => by
    simp only [encFill_read, h]

/-- What the loop of R120 leaves depends on which groups it went through, not on their order (R132). -/
theorem decFill_congr (F : Space) {order order' : List (Fin (groupCount F.length))}
    (h : ∀ g, g ∈ order ↔ g ∈ order') : decFill F order = decFill F order' := by
  refine memory_ext (decFill_wf F order) (decFill_wf F order') fun a => ?_
  by_cases ha : a < groupCount F.length
  · have hread (turns : List (Fin (groupCount F.length))) := decFill_read F turns ⟨a, ha⟩
    simp only [hread, h]
  · rw [decFill_read_beyond F order (not_lt.1 ha), decFill_read_beyond F order' (not_lt.1 ha)]

/-! ## The one byte BITGET reads -/

/-- BITGET sees of BYTES only the element at `idx div 8`, or that there is none (R48, R83, R84). -/
theorem bitget_congr {idx : Nat} {bytes bytes' : Space} (h : bytes[idx / 8]? = bytes'[idx / 8]?) :
    bitget idx bytes = bitget idx bytes' := by
  cases hv : bytes'[idx / 8]? with
  | some v => rw [bitget_inside (h.trans hv), bitget_inside hv]
  | none =>
    rw [bitget_outside (List.getElem?_eq_none_iff.1 (h.trans hv)), bitget_outside (List.getElem?_eq_none_iff.1 hv)]

/-! ## The obligations -/

/-- Settles O22: the stated length is tested against equal lengths, and the bit is read from equal bytes. -/
theorem bitgetReadsAtMostOneByte : Obligations.BitgetReadsAtMostOneByte := by
  intro s idx n bytes bytes' hlen hbyte
  have hadmit : badLength bytes n = badLength bytes' n := by rw [badLength, badLength, hlen]
  show execBitget idx n bytes s = execBitget idx n bytes' s
  rw [execBitget, execBitget, hadmit, bitget_congr hbyte]

/-- Settles O28: a permutation goes through the same positions. -/
theorem encoderOrderIsUnobservable : Obligations.EncoderOrderIsUnobservable := by
  intro bytes order hperm
  rw [encOut, encFill_congr bytes fun x => hperm.mem_iff]

/-- Settles O29: the loop leaves the slots in order, each with its CH, which is the slot's channel of ENCPX. -/
theorem encoderWritesEverySlot : Obligations.EncoderWritesEverySlot := by
  intro bytes
  refine ⟨?_, fun x hx => ⟨?_, ?_, ?_⟩⟩
  · rw [encFill_range, List.map_map]
    exact List.map_id _
  all_goals exact encOut_getElem? (by omega)

/-- Settles O38: a permutation goes through the same groups. -/
theorem decoderOrderIsUnobservable : Obligations.DecoderOrderIsUnobservable := by
  intro F order hperm
  rw [decOut, decFill_congr F fun g => hperm.mem_iff]

/-- Settles O39: the loop leaves the groups in order, each with its DECBYTE. -/
theorem decoderWritesEveryByte : Obligations.DecoderWritesEveryByte := by
  intro F
  refine ⟨?_, fun g => ?_⟩
  · rw [decFill_finRange, List.map_map]
    exact List.map_coe_finRange_eq_range
  · simp [decOut_eq_map_decByte]

/-- Settles O40: the extensionality of the canonical form. -/
theorem equalReadsMeanEqualMemory : Obligations.EqualReadsMeanEqualMemory :=
  fun _ _ hM hM' h => memory_ext hM hM' h

end Sys2Proof.Machine

/-! PROOFS. Requests and operations read back from each other, the arithmetic of the fields, ENC followed by DEC, and the
written lines of RT and BITS: the statements of spec/30_encoding.md. -/

namespace Sys2Proof.Machine

/-! ## Decoding and encoding -/

@[simp] theorem decode_encode (i : Instr) : decode (encode i) = .ok i := by
  cases i with
  | bitget idx n bytes => exact decode_code0 rfl
  | enc n bytes => exact decode_code1 rfl
  | dec w h pix => exact decode_code2 rfl

/-- The rows of R70's table: what a request that decodes can have decoded to. -/
theorem decode_eq_ok_cases {r : Request} {i : Instr} (h : decode r = .ok i) :
    (r.op = 0 ∧ i = .bitget r.idx r.n r.bytes) ∨ (r.op = 1 ∧ i = .enc r.n r.bytes) ∨
      (r.op = 2 ∧ i = .dec r.w r.h r.pix) := by
  obtain hop | hop | hop | hop := op_cases r.op
  · rw [decode_code0 hop] at h; cases h; exact .inl ⟨hop, rfl⟩
  · rw [decode_code1 hop] at h; cases h; exact .inr (.inl ⟨hop, rfl⟩)
  · rw [decode_code2 hop] at h; cases h; exact .inr (.inr ⟨hop, rfl⟩)
  · rw [decode_code3 hop] at h; cases h

/-! ## What a well-formed operation delivers -/

/-- The result of an operation, a function of its operands alone (R20). -/
def resultOf : Instr → Result
  | .bitget idx _ bytes => .bit (bitget idx bytes)
  | .enc n bytes => .image (encWidth n) Config.encHeight (encOut bytes)
  | .dec w h pix => .bytes (groupCount (streamLen w h)) (decOut pix)

/-- A well-formed operation is performed (R71), and only its result is delivered. -/
theorem exec_of_wellFormed {i : Instr} {s : State} (h : i.wellFormed s.params = true) :
    exec i s = .next (deliver (resultOf i) s) := by
  cases i with
  | bitget idx n bytes =>
    obtain ⟨hlimit, hlen⟩ := wellFormed_bitget.1 h
    exact perform_admitted (overLimitQ_eq_false.2 hlimit) (badLength_eq_false.2 hlen) _ s
  | enc n bytes =>
    obtain ⟨hlimit, hlen⟩ := wellFormed_enc.1 h
    exact perform_admitted (overLimitE_eq_false.2 hlimit) (badLength_eq_false.2 hlen) _ s
  | dec w h' pix =>
    obtain ⟨hlimit, hlen⟩ := wellFormed_dec.1 h
    exact perform_admitted (overLimitD_eq_false.2 hlimit) (badLength_eq_false.2 hlen) _ s

/-- A step performs the well-formed operation that is issued, and retires its request (R184). -/
theorem step_of_wellFormed {i : Instr} {s : State} (hr : s.request = some (encode i))
    (h : i.wellFormed s.params = true) : step s = .next (retire (deliver (resultOf i) s)) := by
  rw [step_decoded hr (decode_encode i), exec_of_wellFormed h, conclude_next]

/-- From an idle CORE a well-formed operation goes from issue to result, and leaves the CORE as after a reset. -/
theorem transact_of_wellFormed {i : Instr} {s : State} (hidle : s.request = none)
    (h : i.wellFormed s.params = true) : s.transact (encode i) = some (resultOf i, s.applyReset) := by
  have hstep := step_of_wellFormed (i := i) (s := ⟨s.params, some (encode i), none⟩) rfl h
  simp only [State.transact, issue_idle hidle, hstep]
  exact collect_result rfl rfl

/-! ## The byte of a complete group -/

/-- The loop of R126 over the positions `order`, for the bits `b`: position `i` weighs `2^(7-i)`. -/
def weighedByte (b : Fin 8 → Bit) (order : List (Fin 8)) : Byte :=
  order.foldl (fun byte i => if b i then byte + BitVec.ofNat 8 (2 ^ (7 - i.val)) else byte) 0

theorem decByte_eq_weighedByte (F : Space) (g : Fin (groupCount F.length)) :
    decByte F g =
      weighedByte (fun i => threshold (memRead F (groupSlot g.val i.val) (groupSlot_inside g i))) (List.finRange 8) :=
  rfl

theorem ofNat_two_pow_eq_twoPow (k : Nat) : BitVec.ofNat 8 (2 ^ k) = BitVec.twoPow 8 k :=
  BitVec.eq_of_toNat_eq (by rw [BitVec.toNat_ofNat, BitVec.toNat_twoPow])

/-- Adding the weight of a bit that is still 0 sets that bit and no other: there is no carry. -/
theorem add_twoPow_of_getLsbD_false {v : Byte} {k : Nat} (h : v.getLsbD k = false) :
    v + BitVec.twoPow 8 k = v ||| BitVec.twoPow 8 k := by
  refine BitVec.add_eq_or_of_and_eq_zero _ _ (BitVec.eq_of_getLsbD_eq fun j _ => ?_)
  rw [BitVec.getLsbD_and, BitVec.getLsbD_twoPow, BitVec.getLsbD_zero]
  by_cases hkj : k = j
  · subst hkj; simp [h]
  · simp [hkj]

/-- Each position the loop of R126 went through once has put its own bit in its own place. -/
theorem getLsbD_weighedByte (b : Fin 8 → Bit) {order : List (Fin 8)} (hnodup : order.Nodup) (j : Fin 8) :
    (weighedByte b order).getLsbD (7 - j.val) = (decide (j ∈ order) && b j) := by
  induction order using List.reverseRecOn generalizing j with
  | nil => simp [weighedByte]
  | append_singleton order x ih =>
    obtain ⟨horder, -, hx⟩ := List.nodup_append.1 hnodup
    have hxnot : x ∉ order := fun hmem => hx x hmem x (List.mem_singleton_self x) rfl
    have hturn : weighedByte b (order ++ [x]) =
        if b x then weighedByte b order + BitVec.twoPow 8 (7 - x.val) else weighedByte b order := by
      simp only [weighedByte, List.foldl_append, List.foldl_cons, List.foldl_nil, ofNat_two_pow_eq_twoPow]
    have hfree : (weighedByte b order).getLsbD (7 - x.val) = false := by simp [ih horder, hxnot]
    have hplace : 7 - x.val = 7 - j.val ↔ j = x := by omega
    have hlt : 7 - j.val < 8 := by omega
    rw [hturn]
    split
    · next hbx =>
      rw [add_twoPow_of_getLsbD_false hfree, BitVec.getLsbD_or, BitVec.getLsbD_twoPow, ih horder]
      by_cases hjx : j = x
      · subst hjx; simp [hbx, hlt]
      · simp [hplace, hjx]
    · next hbx =>
      rw [ih horder]
      by_cases hjx : j = x
      · subst hjx; simp [hbx]
      · simp [hjx]

/-- Bit `7-i` of DECBYTE is the threshold of position `i` of its group (R126). -/
theorem getLsbD_decByte (F : Space) (g : Fin (groupCount F.length)) (i : Fin 8) :
    (decByte F g).getLsbD (7 - i.val) = threshold (memRead F (groupSlot g.val i.val) (groupSlot_inside g i)) := by
  rw [decByte_eq_weighedByte, getLsbD_weighedByte _ (List.nodup_finRange 8)]
  simp

theorem byte_eq_of_getLsbD_seven_sub {v v' : Byte}
    (h : ∀ i : Fin 8, v.getLsbD (7 - i.val) = v'.getLsbD (7 - i.val)) : v = v' := by
  refine BitVec.eq_of_getLsbD_eq fun k hk => ?_
  have hback : 7 - (7 - k) = k := by omega
  simpa [hback] using h ⟨7 - k, by omega⟩

/-- DEC gives the byte whose bits are the thresholds of the group's eight values, from the most significant down. -/
theorem decOut_getElem?_of_threshold {F : Space} {g : Nat} {v : Byte}
    (h : ∀ i : Fin 8, ∃ u, F[8 * g + i.val]? = some u ∧ threshold u = v.getLsbD (7 - i.val)) :
    (decOut F)[g]? = some v := by
  obtain ⟨_, hlast, -⟩ := h 7
  obtain ⟨hinside, -⟩ := List.getElem?_eq_some_iff.1 hlast
  have hg : g < groupCount F.length := by
    have hinside' : 8 * g + 7 < F.length := hinside
    rw [groupCount_eq]; omega
  have hbyte : decByte F ⟨g, hg⟩ = v := byte_eq_of_getLsbD_seven_sub fun i => by
    obtain ⟨u, hu, hbit⟩ := h i
    obtain ⟨_, rfl⟩ := List.getElem?_eq_some_iff.1 hu
    rw [getLsbD_decByte, ← hbit]
    rfl
  simp [decOut_eq_map_decByte, hg, hbyte]

/-! ## DEC undoes ENC -/

/-- A slot of the encoder's stream that carries a real bit carries it at its level, and the threshold reads it back. -/
theorem encOut_threshold {bytes : Space} {g : Nat} {v : Byte} (hv : bytes[g]? = some v) (i : Fin 8) :
    ∃ u, (encOut bytes)[8 * g + i.val]? = some u ∧ threshold u = v.getLsbD (7 - i.val) := by
  obtain ⟨hg, -⟩ := List.getElem?_eq_some_iff.1 hv
  have hslot : 8 * g + i.val < 3 * encWidth bytes.length := by rw [encWidth_eq]; omega
  have hdiv : (8 * g + i.val) / 8 = g := by omega
  have hmod : (8 * g + i.val) % 8 = i.val := by omega
  have hbit : bitget (8 * g + i.val) bytes = some (v.getLsbD (7 - i.val)) := by
    rw [bitget_inside (hdiv.symm ▸ hv), hmod]
  exact ⟨_, encOut_getElem? hslot, by rw [ch_real hbit, threshold_levelOf]⟩

/-- At most two padding slots follow the `8·n` real ones, so they complete no group (R66, R141). -/
theorem groupCount_encWidth (n : Nat) : groupCount (3 * encWidth n) = n := by
  rw [groupCount_eq, encWidth_eq]; omega

theorem decOut_encOut (bytes : Space) : decOut (encOut bytes) = bytes := by
  refine List.ext_getElem? fun g => ?_
  cases hv : bytes[g]? with
  | some v => exact decOut_getElem?_of_threshold (encOut_threshold hv)
  | none =>
    rw [List.getElem?_eq_none_iff, decOut_length, encOut_length, groupCount_encWidth]
    exact List.getElem?_eq_none_iff.1 hv

theorem hmax_admits_encHeight {p : Params} (hp : p.hmaxValid = true) : p.hmax.admits Config.encHeight = true := by
  obtain ⟨idxw, nmax, wmax, hmax⟩ := p
  cases hmax with
  | inf => rfl
  | fin m => exact hp

/-- At valid parameters DEC admits every image ENC makes. -/
theorem wellFormed_dec_encOut {p : Params} (hp : p.valid = true) {bytes : Space}
    (hn : p.nmax.admits bytes.length = true) :
    (Instr.dec (encWidth bytes.length) Config.encHeight (encOut bytes)).wellFormed p = true := by
  obtain ⟨-, -, hwmax, hhmax⟩ := params_valid_iff.1 hp
  refine wellFormed_dec.2 ⟨⟨wmax_admits_encWidth hwmax hn, hmax_admits_encHeight hhmax⟩, ?_⟩
  rw [encOut_length, Config.encHeight, Nat.mul_one]

/-- What DEC makes of the image of `bytes`: `bytes` again, and their number (R141). -/
theorem resultOf_dec_encOut (bytes : Space) :
    resultOf (.dec (encWidth bytes.length) Config.encHeight (encOut bytes)) = .bytes bytes.length bytes := by
  simp only [resultOf, decOut_encOut, streamLen_eq, Config.encHeight, Nat.mul_one, groupCount_encWidth]

/-! ## Names and lines -/

@[simp] theorem value?_cons_self (x : Var) (v : Value) (env : Bindings) :
    Bindings.value? ((x, v) :: env) x = some v := if_pos rfl

theorem value?_cons_of_ne {x y : Var} (h : y ≠ x) (v : Value) (env : Bindings) :
    Bindings.value? ((y, v) :: env) x = env.value? x := if_neg h

theorem numArg_value?_var {env : Bindings} {x : Var} {n : Nat} (h : env.value? x = some (.num n)) :
    (NumArg.var x).value? env = some n := by simp [NumArg.value?, h]

theorem seqArg_value?_var {env : Bindings} {x : Var} {S : Space} (h : env.value? x = some (.seq S)) :
    (SeqArg.var x).value? env = some S := by simp [SeqArg.value?, h]

/-- A sequence operand stands for the same under bindings that agree on its name. -/
theorem seqArg_value?_congr {env env' : Bindings} {a : SeqArg}
    (h : ∀ x, a = .var x → env'.value? x = env.value? x) : a.value? env' = a.value? env := by
  cases a with
  | lit S => rfl
  | var x => simp only [SeqArg.value?, h x rfl]

/-- A line with a well-formed operation, run on an idle CORE, binds the operation's result (R76). -/
theorem run_of_wellFormed {l : Line} {env : Bindings} {s : State} {i : Instr} (hi : l.instr? env = some i)
    (hidle : s.request = none) (h : i.wellFormed s.params = true) :
    l.run env s = .ok (l.bindings env (resultOf i), s.applyReset) := by
  cases l with
  | host x v => cases hi
  | _ => simp only [Line.run, hi, transact_of_wellFormed hidle h]

theorem runLines_cons {l : Line} {env env' : Bindings} {s t : State} (h : l.run env s = .ok (env', t))
    (rest : List Line) : runLines (l :: rest) env s = runLines rest env' t := by
  simp only [runLines, h]

theorem runLines_append {ls : List Line} {env env' : Bindings} {s t : State} (h : runLines ls env s = .ok (env', t))
    (rest : List Line) : runLines (ls ++ rest) env s = runLines rest env' t := by
  induction ls generalizing env s with
  | nil => cases h; rfl
  | cons l ls ih =>
    simp only [List.cons_append, runLines] at h ⊢
    split at h
    · cases h
    · exact ih h

/-! ## The lines of RT -/

/-- The bindings the first line of RT leaves. -/
def encBindings (bytes : Space) (w h pix : Var) (env : Bindings) : Bindings :=
  (pix, .seq (encOut bytes)) :: (h, .num Config.encHeight) :: (w, .num (encWidth bytes.length)) :: env

theorem run_enc {s : State} {env : Bindings} {a : SeqArg} {bytes : Space} (hidle : s.request = none)
    (hn : s.params.nmax.admits bytes.length = true) (ha : a.value? env = some bytes) (w h pix : Var) :
    (Line.enc a w h pix).run env s = .ok (encBindings bytes w h pix env, s.applyReset) := by
  have hinstr : (Line.enc a w h pix).instr? env = some (.enc bytes.length bytes) := by simp [Line.instr?, ha]
  exact run_of_wellFormed hinstr hidle (wellFormed_enc.2 ⟨hn, rfl⟩)

/-- The second line of RT reads its three operands from the bindings of the first. -/
theorem instr?_dec_encBindings (bytes : Space) (env : Bindings) {w h pix : Var} (hwh : w ≠ h) (hwpix : w ≠ pix)
    (hhpix : h ≠ pix) (m out : Var) :
    (Line.dec (.var w) (.var h) (.var pix) m out).instr? (encBindings bytes w h pix env) =
      some (.dec (encWidth bytes.length) Config.encHeight (encOut bytes)) := by
  have hW : (encBindings bytes w h pix env).value? w = some (.num (encWidth bytes.length)) := by
    simp [encBindings, value?_cons_of_ne hwh.symm, value?_cons_of_ne hwpix.symm]
  have hH : (encBindings bytes w h pix env).value? h = some (.num Config.encHeight) := by
    simp [encBindings, value?_cons_of_ne hhpix.symm]
  have hP : (encBindings bytes w h pix env).value? pix = some (.seq (encOut bytes)) := value?_cons_self _ _ _
  simp only [Line.instr?, numArg_value?_var hW, numArg_value?_var hH, seqArg_value?_var hP]

/-! ## The lines of BITS -/

/-- The bindings the first `k` lines of BITS leave: `rj` to BITGET of `j`, the latest first. -/
def bitBindings (bytes : Space) (r0 : Var) (env : Bindings) : Nat → Bindings
  | 0 => env
  | k + 1 => (r0 + k, .optBit (bitget k bytes)) :: bitBindings bytes r0 env k

theorem value?_bitBindings {bytes : Space} {r0 : Var} {env : Bindings} {k j : Nat} (hj : j < k) :
    (bitBindings bytes r0 env k).value? (r0 + j) = some (.optBit (bitget j bytes)) := by
  induction k with
  | zero => omega
  | succ k ih =>
    by_cases hjk : j = k
    · subst hjk; exact value?_cons_self _ _ _
    · have hne : r0 + k ≠ r0 + j := fun h => hjk (Nat.add_left_cancel h).symm
      rw [bitBindings, value?_cons_of_ne hne, ih (by omega)]

theorem value?_bitBindings_of_ne {bytes : Space} {r0 : Var} {env : Bindings} {k : Nat} {x : Var}
    (hx : ∀ j, j < k → x ≠ r0 + j) : (bitBindings bytes r0 env k).value? x = env.value? x := by
  induction k with
  | zero => rfl
  | succ k ih =>
    rw [bitBindings, value?_cons_of_ne (hx k (by omega)).symm, ih fun j hj => hx j (by omega)]

theorem pseudoBits_succ (k : Nat) (a : SeqArg) (r0 : Var) :
    pseudoBits (k + 1) a r0 = pseudoBits k a r0 ++ [.bitget (.lit k) a (r0 + k)] := by
  simp [pseudoBits, List.range_succ]

/-- Each line of BITS finds the CORE idle at the same parameters and its operand unchanged, and binds its own result. -/
theorem runLines_pseudoBits {s : State} {env : Bindings} {a : SeqArg} {bytes : Space} {r0 : Var} {k : Nat}
    (hidle : s.request = none) (hn : s.params.nmax.admits bytes.length = true)
    (hidx : ∀ j, j < k → s.params.idxw.holdsBits j = true) (ha : a.value? env = some bytes)
    (hfresh : ∀ x, a = .var x → ∀ j, j < k → x ≠ r0 + j) :
    ∃ t, runLines (pseudoBits k a r0) env s = .ok (bitBindings bytes r0 env k, t) ∧
      t.request = none ∧ t.params = s.params := by
  induction k with
  | zero => exact ⟨s, rfl, hidle, rfl⟩
  | succ k ih =>
    obtain ⟨t, hrun, htidle, htparams⟩ :=
      ih (fun j hj => hidx j (by omega)) fun x hx j hj => hfresh x hx j (by omega)
    have hoperand : a.value? (bitBindings bytes r0 env k) = some bytes := by
      rw [seqArg_value?_congr fun x hx => value?_bitBindings_of_ne fun j hj => hfresh x hx j (by omega), ha]
    have hinstr : (Line.bitget (.lit k) a (r0 + k)).instr? (bitBindings bytes r0 env k) =
        some (.bitget k bytes.length bytes) := by simp [Line.instr?, NumArg.value?, hoperand]
    have hwf : (Instr.bitget k bytes.length bytes).wellFormed t.params = true := by
      rw [htparams]
      exact wellFormed_bitget.2 ⟨⟨hidx k (by omega), hn⟩, rfl⟩
    refine ⟨t.applyReset, ?_, rfl, htparams⟩
    rw [pseudoBits_succ, runLines_append hrun, runLines_cons (run_of_wellFormed hinstr htidle hwf)]
    rfl

/-! ## The obligations -/

/-- Settles O48: the first line binds the image, the second reads it from the names and decodes it to the input. -/
theorem rtLinesGiveTheInputBack : Obligations.RtLinesGiveTheInputBack := by
  intro s env a bytes w h pix m out hidle hp hn hnodup ha
  simp only [List.nodup_cons, List.mem_cons, List.not_mem_nil, or_false, not_or] at hnodup
  obtain ⟨⟨hwh, hwpix, -, -⟩, ⟨hhpix, -, -⟩, -, hmout, -⟩ := hnodup
  have hdec := run_of_wellFormed (s := s.applyReset) (instr?_dec_encBindings bytes env hwh hwpix hhpix m out) rfl
    (wellFormed_dec_encOut hp hn)
  rw [resultOf_dec_encOut] at hdec
  refine ⟨(out, .seq bytes) :: (m, .num bytes.length) :: encBindings bytes w h pix env, s.applyReset, ?_, ?_, ?_, rfl⟩
  · rw [pseudoRt, runLines_cons (run_enc hidle hn ha w h pix), runLines_cons hdec]
    rfl
  · exact value?_cons_self _ _ _
  · rw [value?_cons_of_ne (Ne.symm hmout), value?_cons_self]

/-- Settles O49: after all lines `rj` still has the binding its own line gave it. -/
theorem bitsLinesGiveEveryBit : Obligations.BitsLinesGiveEveryBit := by
  intro s env k a bytes r0 hidle hn hidx ha hfresh
  obtain ⟨t, hrun, -, -⟩ := runLines_pseudoBits hidle hn hidx ha hfresh
  exact ⟨_, t, hrun, fun j hj => value?_bitBindings hj⟩

/-- Settles O4: the code 11 does not decode, whatever the operands. -/
theorem reservedCodeIsRefused : Obligations.ReservedCodeIsRefused := by
  intro s r hr hop
  exact step_rejected hr (decode_code3 hop)

/-- Settles O7: a well-formed operation is performed, and one that is performed was well formed. -/
theorem exactlyWellFormedOperationsComplete : Obligations.ExactlyWellFormedOperationsComplete := by
  intro i s
  refine ⟨⟨fun h => ⟨_, exec_of_wellFormed h⟩, ?_⟩, fun h => ⟨resultOf i, exec_of_wellFormed h⟩⟩
  rintro ⟨t, hexec⟩
  exact (exec_next hexec).1

/-- Settles O12, by the operation's format. -/
theorem decodeReadsBackEncode : Obligations.DecodeReadsBackEncode := decode_encode

/-- Settles O13: each row of R70's table speaks to its own code and contradicts the two others. -/
theorem encodeReadsBackDecode : Obligations.EncodeReadsBackDecode := by
  rintro ⟨op, idx, n, w, h, bytes, pix⟩ i hdecode
  obtain ⟨hop, rfl⟩ | ⟨hop, rfl⟩ | ⟨hop, rfl⟩ := decode_eq_ok_cases hdecode <;> cases hop
  · exact ⟨rfl, fun _ => rfl, nofun, nofun⟩
  · exact ⟨rfl, nofun, fun _ => rfl, nofun⟩
  · exact ⟨rfl, nofun, nofun, fun _ => rfl⟩

/-- Settles O14: each word's low two bits are the code of one row of R70's table, or the reserved one. -/
theorem tableWordsDecode : Obligations.TableWordsDecode := ⟨rfl, rfl, rfl, rfl⟩

/-- Settles O15: the shift and the mask are the quotient and the remainder by `2^3`; the complement is seen at the eight
offsets. -/
theorem bitIndexFields : Obligations.BitIndexFields := by
  intro idx
  have hcomplement : ∀ off : Fin 8, 7 - off.val = off.val ^^^ 7 := by decide
  refine ⟨rfl, rfl, (Nat.div_add_mod idx 8).symm, rfl, ?_, ?_, ?_⟩
  · exact (Nat.shiftRight_eq_div_pow idx 3).symm
  · exact (Nat.and_two_pow_sub_one_eq_mod idx 3).symm
  · exact hcomplement ⟨idx % 8, Nat.mod_lt idx (by decide)⟩

/-- Settles O16: linear arithmetic over the quotient, residue by residue. -/
theorem widthAndPaddingByResidue : Obligations.WidthAndPaddingByResidue := by
  intro n
  have hw : encWidth n = (8 * n + 2) / 3 := encWidth_eq n
  simp only [slot_eq]
  refine ⟨hw, fun _ => ⟨?_, ?_, ?_⟩, fun _ => ⟨?_, ?_, ?_⟩, fun _ => ⟨?_, ?_, ?_, ?_⟩⟩
  all_goals omega

/-- Settles O23: with `valid = 1` the `bit` field is the bit, with `valid = 0` it is not looked at. -/
theorem resultFieldsStandForOptionalBit : Obligations.ResultFieldsStandForOptionalBit := by
  intro u r
  cases r with
  | none => exact ⟨rfl, Iff.rfl, fun b h => nomatch h⟩
  | some b => exact ⟨rfl, iff_of_true rfl rfl, fun b' h => Option.some.inj h⟩

end Sys2Proof.Machine

/-! PROOFS. The bit BITGET reads and when there is one, and a byte as the weighted sum of its bits: the statements of
spec/40_bit_indexer.md. -/

namespace Sys2Proof.Machine

/-! ## A byte and its bits -/

/-- The low `w` bits of a number, each at its weight, add up to the number modulo `2^w`. -/
theorem mod_two_pow_eq_sum_testBit (x w : Nat) :
    x % 2 ^ w = ∑ k ∈ Finset.range w, if x.testBit k then 2 ^ k else 0 := by
  induction w with
  | zero => simp [Nat.mod_one]
  | succ w ih =>
    rw [Finset.sum_range_succ, ← ih, Nat.mod_pow_succ, ← Nat.toNat_testBit]
    cases x.testBit w <;> simp

/-- A byte is the sum of its bits from the most significant down, bit `7-i` at weight `2^(7-i)` (R87). -/
theorem byte_toNat_eq_sum_bits (v : Byte) :
    v.toNat = ∑ i ∈ Finset.range 8, if v.getLsbD (7 - i) then 2 ^ (7 - i) else 0 := by
  calc v.toNat
      = v.toNat % 2 ^ 8 := (Nat.mod_eq_of_lt v.isLt).symm
    _ = ∑ k ∈ Finset.range 8, if v.getLsbD k then 2 ^ k else 0 := mod_two_pow_eq_sum_testBit v.toNat 8
    _ = ∑ i ∈ Finset.range 8, if v.getLsbD (7 - i) then 2 ^ (7 - i) else 0 :=
        (Finset.sum_range_reflect (fun k => if v.getLsbD k then 2 ^ k else 0) 8).symm

/-- Bit `k` of a byte as a quotient: `(v div 2^k) mod 2`. -/
theorem byte_getLsbD_eq_div_mod (v : Byte) (k : Nat) : v.getLsbD k = decide (v.toNat / 2 ^ k % 2 = 1) :=
  Nat.testBit_eq_decide_div_mod_eq

/-! ## The bit stream of a sequence -/

/-- Index `8a+i` is bit `7-i` of byte `a` (R60, R83). -/
theorem bitget_of_byte {bytes : Space} {a i : Nat} {v : Byte} (hv : bytes[a]? = some v) (hi : i < 8) :
    bitget (8 * a + i) bytes = some (v.getLsbD (7 - i)) := by
  have hdiv : (8 * a + i) / 8 = a := by omega
  have hmod : (8 * a + i) % 8 = i := by omega
  rw [bitget_inside (hdiv.symm ▸ hv), hmod]

/-- BITGET gives a value exactly when the byte index is in bounds (R82). -/
theorem bitget_isSome_iff (idx : Nat) (bytes : Space) :
    (bitget idx bytes).isSome = true ↔ idx / 8 < bytes.length := by
  by_cases hin : idx / 8 < bytes.length
  · rw [bitget_inside (List.getElem?_eq_getElem hin)]
    exact iff_of_true rfl hin
  · rw [bitget_outside (not_lt.1 hin)]
    exact iff_of_false Bool.false_ne_true hin

/-! ## The obligations -/

/-- Settles O21: the stream gives each bit of the byte, and the byte is the sum of its bits. -/
theorem bytesRebuiltFromTheirBits : Obligations.BytesRebuiltFromTheirBits := by
  intro bytes a v hv
  refine ⟨fun i hi => bitget_of_byte hv hi, ?_⟩
  rw [byte_toNat_eq_sum_bits]
  refine Finset.sum_congr rfl fun i hi => ?_
  simp [bitget_of_byte hv (Finset.mem_range.1 hi)]

/-- Settles O18: the request is well formed, and what it delivers is BITGET's value in range and out of range. -/
theorem bitgetCompletesWithIndexedBit : Obligations.BitgetCompletesWithIndexedBit := by
  intro s idx n bytes hidx hn hlen
  refine ⟨bitget idx bytes, exec_of_wellFormed (wellFormed_bitget.2 ⟨⟨hidx, hn⟩, hlen⟩), fun v hv => ?_, fun hout => ?_⟩
  · rw [bitget_inside hv, byte_getLsbD_eq_div_mod]
  · exact bitget_outside (hlen.trans_le hout)

/-- Settles O19: a BITGET that completes had `N` bytes, so its bounds test is against `N`. -/
theorem bitgetIsSomeExactlyInRange : Obligations.BitgetIsSomeExactlyInRange := by
  intro s t idx n bytes h
  obtain ⟨-, hlen, rfl⟩ := perform_next h
  have hsome : (bitget idx bytes).isSome = true ↔ idx / 8 < n := badLength_eq_false.1 hlen ▸ bitget_isSome_iff idx bytes
  have hbits : idx / 8 < n ↔ idx < 8 * n := by omega
  exact ⟨bitget idx bytes, rfl, hsome, hsome.trans hbits⟩

end Sys2Proof.Machine

/-! PROOFS. The channel value of a slot, the width of the encoder's image and its padding, and the buffer ENC delivers:
the statements of spec/41_rgb_encoder.md. -/

namespace Sys2Proof.Machine

/-! ## The level of a bit -/

/-- The level of a bit is `b · 255` (R62). -/
theorem levelOf_toNat (b : Bit) : (levelOf b).toNat = b.toNat * 255 := by
  cases b with
  | false => rfl
  | true => rfl

theorem levelOf_eq_ite (b : Bit) : levelOf b = if b then 255 else 0 := rfl

/-! ## The width and its padding -/

/-- The `3·W` slots hold all `8·N` bits and at most two more (R101, R111). -/
theorem three_mul_encWidth_bounds (n : Nat) : 8 * n ≤ 3 * encWidth n ∧ 3 * encWidth n ≤ 8 * n + 2 := by
  rw [encWidth_eq]
  omega

/-- No smaller width holds all `8·N` bits (R101). -/
theorem encWidth_le_of_holds {n q : Nat} (h : 8 * n ≤ 3 * q) : encWidth n ≤ q := by
  rw [encWidth_eq]
  omega

/-- The bounds test of R82 counted in bits: an index is in range exactly below `8·N`. -/
theorem bitget_isSome_iff_lt (idx : Nat) (bytes : Space) :
    (bitget idx bytes).isSome = true ↔ idx < 8 * bytes.length := by
  have hbits : idx / 8 < bytes.length ↔ idx < 8 * bytes.length := by omega
  exact (bitget_isSome_iff idx bytes).trans hbits

theorem bitget_eq_none_iff (idx : Nat) (bytes : Space) : bitget idx bytes = none ↔ 8 * bytes.length ≤ idx := by
  rw [← Option.not_isSome_iff_eq_none, bitget_isSome_iff_lt, not_lt]

/-! ## The values of the encoder's buffer -/

theorem mem_encOut_eq_zero_or_max {bytes : Space} {v : Byte} (hv : v ∈ encOut bytes) : v = 0 ∨ v = 255 := by
  rw [encOut_eq_map_ch] at hv
  obtain ⟨s, -, rfl⟩ := List.mem_map.1 hv
  exact ch_eq_zero_or_max s bytes

/-- A slot below `8·N` holds the level of the bit with its index (R103, R105). -/
theorem encOut_real {bytes : Space} {s : Nat} {v : Byte} (hv : bytes[s / 8]? = some v) :
    (encOut bytes)[s]? = some (levelOf (v.getLsbD (7 - s % 8))) := by
  have hbit : bitget s bytes = some (v.getLsbD (7 - s % 8)) := bitget_inside hv
  have hs : s < 8 * bytes.length := (bitget_isSome_iff_lt s bytes).1 (by rw [hbit]; rfl)
  have hslot : s < 3 * encWidth bytes.length := hs.trans_le (three_mul_encWidth_bounds bytes.length).1
  rw [encOut_getElem? hslot, ch_real hbit]

/-! ## The obligations -/

/-- Settles O25: the request is well formed, and each slot of what it delivers is a real or a padding slot. -/
theorem encCompletesWithAssembledBuffer : Obligations.EncCompletesWithAssembledBuffer := by
  rintro s n bytes hn rfl
  have hexec := exec_of_wellFormed (wellFormed_enc.2 ⟨hn, rfl⟩)
  refine ⟨encWidth bytes.length, encOut bytes, hexec, encWidth_eq _, (three_mul_encWidth_bounds _).1,
    fun q => encWidth_le_of_holds, encOut_length bytes, fun j => encOut_getElem?, fun j v _ hv => ?_,
    fun j => encOut_padding⟩
  rw [encOut_real hv, levelOf_eq_ite]

/-- Settles O26: an ENC that completes had `N` bytes and delivers nothing but the image assembled from them. -/
theorem encoderOutputShape : Obligations.EncoderOutputShape := by
  intro s t n w h bytes pix hexec hresult
  obtain ⟨-, hlen, rfl⟩ := perform_next hexec
  obtain rfl := badLength_eq_false.1 hlen
  cases hresult
  obtain ⟨hlow, hhigh⟩ := three_mul_encWidth_bounds bytes.length
  exact ⟨rfl, fun v => mem_encOut_eq_zero_or_max, by omega, encOut_length bytes, fun j => encOut_padding⟩

/-- Settles O24, by the bit BITGET gives or does not give. -/
theorem channelValueOfSlot : Obligations.ChannelValueOfSlot := by
  intro s bytes
  refine ⟨fun b hb => ?_, ch_padding, ch_eq_zero_or_max s bytes⟩
  rw [ch_real hb, levelOf_toNat]

/-- Settles O27: at most two slots follow the `8·N` real ones, so all of them lie in the last pixel, after its first
slot. -/
theorem encoderIndicesAndPadding : Obligations.EncoderIndicesAndPadding := by
  intro bytes j hj
  obtain ⟨hlow, hhigh⟩ := three_mul_encWidth_bounds bytes.length
  refine ⟨by omega, bitget_isSome_iff_lt j bytes, fun hnone => ?_, (bitget_isSome_iff_lt _ bytes).2 (by omega)⟩
  have hpad : 8 * bytes.length ≤ j := (bitget_eq_none_iff j bytes).1 hnone
  omega

end Sys2Proof.Machine

/-! PROOFS. The stream a pixel buffer flattens to, and what DEC makes of each complete group of it: the statements of
spec/42_rgb_decoder.md. -/

namespace Sys2Proof.Machine

/-! ## The flattened stream -/

/-- Blocks of one length `m` laid end to end: `m` values per block. -/
theorem length_flatMap_of_length {α β : Type} {l : List α} {f : α → List β} {m : Nat}
    (hf : ∀ a ∈ l, (f a).length = m) : (l.flatMap f).length = m * l.length := by
  rw [List.length_flatMap, List.map_congr_left hf, List.map_const', List.sum_replicate, smul_eq_mul, Nat.mul_comm]

/-- Blocks of one length `m` laid end to end: value `j` of block `i` is at index `m·i + j`. -/
theorem getElem?_flatMap_of_length {α β : Type} {l : List α} {f : α → List β} {m : Nat}
    (hf : ∀ a ∈ l, (f a).length = m) {i j : Nat} {a : α} (hi : l[i]? = some a) (hj : j < m) :
    (l.flatMap f)[m * i + j]? = (f a)[j]? := by
  induction l generalizing i with
  | nil => simp at hi
  | cons b l ih =>
    obtain ⟨hb, hl⟩ := List.forall_mem_cons.1 hf
    rw [List.flatMap_cons]
    cases i with
    | zero =>
      obtain rfl : b = a := by simpa using hi
      rw [Nat.mul_zero, Nat.zero_add, List.getElem?_append_left (hb.symm ▸ hj)]
    | succ i =>
      have hskip : m * (i + 1) + j = (f b).length + (m * i + j) := by rw [hb]; ring
      rw [hskip, List.getElem?_append_right (Nat.le_add_right _ _), Nat.add_sub_cancel_left]
      exact ih hl hi

@[simp] theorem channelValues_length (p : Pixel) : (Pixel.channelValues p).length = 3 := rfl

/-- A row of `W` pixels has `3·W` channel values. -/
theorem row_channelValues_length (row : List Pixel) : (row.flatMap Pixel.channelValues).length = 3 * row.length :=
  length_flatMap_of_length fun p _ => channelValues_length p

/-- Channel `c` of the pixel at row `y`, column `x` is at index `3·(y·W + x) + c` (R121). -/
theorem flatten_getElem? {W : Nat} {rows : List (List Pixel)} (hrows : ∀ row ∈ rows, row.length = W) {y x c : Nat}
    {row : List Pixel} {p : Pixel} (hy : rows[y]? = some row) (hx : row[x]? = some p) (hc : c < 3) :
    (flatten rows)[3 * (y * W + x) + c]? = (Pixel.channelValues p)[c]? := by
  have hblock : ∀ row ∈ rows, (row.flatMap Pixel.channelValues).length = 3 * W := fun row hmem => by
    rw [row_channelValues_length, hrows row hmem]
  have hin : 3 * x + c < 3 * W := by
    obtain ⟨hlt, -⟩ := List.getElem?_eq_some_iff.1 hx
    rw [hrows row (List.mem_of_getElem? hy)] at hlt
    omega
  calc (flatten rows)[3 * (y * W + x) + c]?
      = (flatten rows)[3 * W * y + (3 * x + c)]? := by congr 1; ring
    _ = (row.flatMap Pixel.channelValues)[3 * x + c]? := getElem?_flatMap_of_length hblock hy hin
    _ = (Pixel.channelValues p)[c]? := getElem?_flatMap_of_length (fun q _ => channelValues_length q) hx hc

/-! ## The threshold and the bytes of OUT -/

/-- Above 127 and having the top bit set are the same for a `u8` (R124). -/
theorem threshold_eq_getLsbD_seven (v : Byte) : threshold v = v.getLsbD 7 := by
  have hv : v.toNat < 256 := v.isLt
  rw [threshold_eq, byte_getLsbD_eq_div_mod, decide_eq_decide]
  omega

/-- Each complete group has its byte in OUT, and each position of it its value in the stream, whose threshold is the
byte's bit (R122, R126, R127). -/
theorem decOut_getElem?_of_group {F : Space} {g : Nat} (hg : g < groupCount F.length) :
    ∃ v : Byte, (decOut F)[g]? = some v ∧
      ∀ i, i < 8 → ∃ u : Byte, F[8 * g + i]? = some u ∧ v.getLsbD (7 - i) = threshold u := by
  refine ⟨decByte F ⟨g, hg⟩, by simp [decOut_eq_map_decByte, hg], fun i hi => ?_⟩
  have hslot : 8 * g + i < F.length := groupSlot_inside ⟨g, hg⟩ ⟨i, hi⟩
  exact ⟨F[8 * g + i], List.getElem?_eq_getElem hslot, getLsbD_decByte F ⟨g, hg⟩ ⟨i, hi⟩⟩

/-- OUT depends on the stream's length and on the thresholds within complete groups alone (R131). -/
theorem decOut_congr {F F' : Space} (hlen : F.length = F'.length)
    (h : ∀ (j : Nat) (u u' : Byte), j < 8 * groupCount F.length → F[j]? = some u → F'[j]? = some u' →
      threshold u = threshold u') : decOut F = decOut F' := by
  refine List.ext_getElem? fun g => ?_
  by_cases hg : g < groupCount F.length
  · obtain ⟨v', hv', hbits'⟩ := decOut_getElem?_of_group (hlen ▸ hg)
    obtain ⟨v, -, hbits⟩ := decOut_getElem?_of_group hg
    rw [hv']
    refine decOut_getElem?_of_threshold fun i => ?_
    obtain ⟨u, hu, -⟩ := hbits i i.isLt
    obtain ⟨u', hu', hbit'⟩ := hbits' i i.isLt
    exact ⟨u, hu, (h _ u u' (by omega) hu hu').trans hbit'.symm⟩
  · have hnone : (decOut F).length ≤ g := by rw [decOut_length]; exact not_lt.1 hg
    have hnone' : (decOut F').length ≤ g := by rw [decOut_length, ← hlen]; exact not_lt.1 hg
    rw [List.getElem?_eq_none hnone, List.getElem?_eq_none hnone']

/-- A refused operation has no result, so two results need to agree only where the operation is admitted (R162). -/
theorem perform_congr {tooLarge badLen : Bool} {r r' : Result} (s : State)
    (h : tooLarge = false → badLen = false → r = r') : perform tooLarge badLen r s = perform tooLarge badLen r' s := by
  obtain ⟨rfl, -⟩ | ⟨rfl, rfl, -⟩ | ⟨htooLarge, hbadLen, -⟩ := perform_cases tooLarge badLen r s
  · rfl
  · rfl
  · rw [h htooLarge hbadLen]

/-- DEC of admitted operands delivers the group count of the stream and its OUT (R120, R123). -/
theorem exec_dec_of_admitted {s : State} {w h : Nat} {pix : Space} (hw : s.params.wmax.admits w = true)
    (hh : s.params.hmax.admits h = true) (hlen : pix.length = 3 * w * h) :
    exec (.dec w h pix) s = .next { s with result := some (.bytes (3 * w * h / 8) (decOut pix)) } :=
  exec_of_wellFormed (wellFormed_dec.2 ⟨⟨hw, hh⟩, hlen⟩)

/-! ## The obligations -/

/-- Settles O17: rows are blocks of `3·W` values, and pixels are blocks of three. -/
theorem flattenIsRowMajor : Obligations.FlattenIsRowMajor := by
  intro W rows hrows
  refine ⟨length_flatMap_of_length fun row hmem => ?_, fun y x row p hy hx => ⟨?_, ?_, ?_⟩⟩
  · rw [row_channelValues_length, hrows row hmem]
  all_goals exact flatten_getElem? hrows hy hx (by decide)

/-- Settles O33: a byte is the sum of its bits, and those of DECBYTE are the thresholds of its group. -/
theorem decodedByteIsWeightedSum : Obligations.DecodedByteIsWeightedSum := by
  intro F g
  rw [byte_toNat_eq_sum_bits, Finset.sum_range]
  exact Finset.sum_congr rfl fun i _ => by rw [getLsbD_decByte]

/-- Settles O34: the request is well formed, and each complete group of its stream has its byte. -/
theorem decCompletesWithGroups : Obligations.DecCompletesWithGroups := by
  intro s w h pix hw hh hlen
  have hcount : groupCount pix.length = 3 * w * h / 8 := by rw [hlen, groupCount_eq]
  exact ⟨decOut pix, exec_dec_of_admitted hw hh hlen, by rw [decOut_length, hcount],
    fun g hg => decOut_getElem?_of_group (hcount.symm ▸ hg)⟩

/-- Settles O37: both requests are admitted or both refused, and an admitted one delivers what the top bits within
complete groups decide. -/
theorem decodingSeesOnlyTopBitsOfGroups : Obligations.DecodingSeesOnlyTopBitsOfGroups := by
  intro s w h pix pix' hlen htop
  have hadmit : badLength pix (streamLen w h) = badLength pix' (streamLen w h) := by rw [badLength, badLength, hlen]
  show execDec w h pix s = execDec w h pix' s
  rw [execDec, execDec, ← hadmit]
  refine perform_congr s fun _ hbadLen => ?_
  have hstream : pix.length = streamLen w h := badLength_eq_false.1 hbadLen
  rw [decOut_congr hlen fun j u u' hj hu hu' => ?_]
  rw [threshold_eq_getLsbD_seven, threshold_eq_getLsbD_seven]
  exact htop j u u' (by rwa [hstream] at hj) hu hu'

/-- Settles O32: the top bit, and the threshold at the four values of R124. -/
theorem thresholdIsTopBit : Obligations.ThresholdIsTopBit := by
  refine ⟨fun v => ⟨?_, threshold_eq_getLsbD_seven v⟩, rfl, rfl, rfl, rfl⟩
  rw [threshold_eq, decide_eq_true_iff]

/-- Settles O35: such a stream has no complete group, so its OUT is empty. -/
theorem shortRasterDecodesToNothing : Obligations.ShortRasterDecodesToNothing := by
  intro s w h pix hw hh hlen hshort
  have hcount : 3 * w * h / 8 = 0 := Nat.div_eq_of_lt hshort
  have hout : decOut pix = [] := List.eq_nil_of_length_eq_zero (by rw [decOut_length, hlen, groupCount_eq, hcount])
  rw [exec_dec_of_admitted hw hh hlen, hcount, hout]

end Sys2Proof.Machine

/-! PROOFS. ENC and DEC one after the other: the round trip, and what is left of it when the host alters, cuts or reshapes
the image in between; the fixed examples of SPX: the statements of spec/45_properties.md. -/

namespace Sys2Proof.Machine

/-! ## Bounds -/

/-- A bound that admits a number admits every smaller one. -/
theorem admits_of_le {b : Bound} {x y : Nat} (hy : b.admits y = true) (hxy : x ≤ y) : b.admits x = true := by
  cases b with
  | inf => rfl
  | fin m => exact (bound_fin_admits m x).2 (hxy.trans ((bound_fin_admits m y).1 hy))

@[simp] theorem admits_zero (b : Bound) : b.admits 0 = true := by
  cases b with
  | inf => rfl
  | fin m => exact (bound_fin_admits m 0).2 m.zero_le

/-! ## The image between ENC and DEC -/

/-- An ENC that completes with an image had admitted operands, and the image is the one assembled from them (R100). -/
theorem exec_enc_image {s t : State} {n w h : Nat} {bytes pix : Space} (hexec : exec (.enc n bytes) s = .next t)
    (himage : t.result = some (.image w h pix)) :
    s.params.nmax.admits n = true ∧ n = bytes.length ∧ t.params = s.params ∧
      w = encWidth bytes.length ∧ h = 1 ∧ pix = encOut bytes := by
  obtain ⟨hlimit, hlen, rfl⟩ := perform_next hexec
  obtain rfl := badLength_eq_false.1 hlen
  cases himage
  exact ⟨overLimitE_eq_false.1 hlimit, rfl, rfl, rfl, rfl, rfl⟩

/-- DEC of a single row no wider than an admitted image, as the host may have altered or cut it. -/
theorem exec_dec_row_of_le_encWidth {s : State} {n w : Nat} {pix : Space} (hp : s.params.valid = true)
    (hn : s.params.nmax.admits n = true) (hw : w ≤ encWidth n) (hlen : pix.length = 3 * w) :
    exec (.dec w 1 pix) s = .next { s with result := some (.bytes (3 * w / 8) (decOut pix)) } := by
  obtain ⟨-, -, hwmax, hhmax⟩ := params_valid_iff.1 hp
  have hdec := exec_dec_of_admitted (h := 1) (admits_of_le (wmax_admits_encWidth hwmax hn) hw)
    (hmax_admits_encHeight hhmax) (by rw [hlen, Nat.mul_one])
  rwa [Nat.mul_one] at hdec

/-- A level moved to anywhere on its own side of the midpoint keeps its threshold (R125, R148). -/
theorem threshold_eq_of_same_side {u u' : Byte} (hu : u = 0 ∨ u = 255) (hhigh : u = 255 → 128 ≤ u'.toNat)
    (hlow : u = 0 → u'.toNat ≤ 127) : threshold u' = threshold u := by
  rw [threshold_eq u']
  obtain rfl | rfl := hu
  · exact decide_eq_false (not_lt.2 (hlow rfl))
  · exact decide_eq_true (hhigh rfl)

/-! ## What a byte of OUT depends on -/

/-- A byte of OUT is the byte whose bits are the thresholds of its group's eight values, all of which are there (R122, R126). -/
theorem decOut_getElem?_eq_some_iff {F : Space} {g : Nat} {v : Byte} :
    (decOut F)[g]? = some v ↔ ∀ i : Fin 8, ∃ u, F[8 * g + i.val]? = some u ∧ threshold u = v.getLsbD (7 - i.val) := by
  refine ⟨fun hv i => ?_, decOut_getElem?_of_threshold⟩
  obtain ⟨hin, -⟩ := List.getElem?_eq_some_iff.1 hv
  obtain ⟨v', hv', hbits⟩ := decOut_getElem?_of_group (decOut_length F ▸ hin)
  obtain rfl : v' = v := Option.some.inj (hv'.symm.trans hv)
  obtain ⟨u, hu, hbit⟩ := hbits i i.isLt
  exact ⟨u, hu, hbit.symm⟩

/-- DEC sees for the byte at `g` only the eight slots of group `g`, or that one of them is missing. -/
theorem decOut_getElem?_congr {F F' : Space} {g : Nat} (h : ∀ i, i < 8 → F[8 * g + i]? = F'[8 * g + i]?) :
    (decOut F)[g]? = (decOut F')[g]? := by
  refine Option.ext fun v => ?_
  rw [decOut_getElem?_eq_some_iff, decOut_getElem?_eq_some_iff]
  exact forall_congr' fun i => by rw [h i i.isLt]

/-- Cutting the stream to its first `l` values leaves the bytes whose groups lie within them (R123, R188). -/
theorem decOut_take (F : Space) (l : Nat) : decOut (F.take l) = (decOut F).take (l / 8) := by
  refine List.ext_getElem? fun g => ?_
  by_cases hg : g < l / 8
  · rw [List.getElem?_take_of_lt hg]
    exact decOut_getElem?_congr fun i hi => List.getElem?_take_of_lt (by omega)
  · have hcut : (decOut (F.take l)).length ≤ g := by
      rw [decOut_length, List.length_take, groupCount_eq]; omega
    rw [List.getElem?_eq_none hcut, List.getElem?_take_eq_none (not_lt.1 hg)]

/-- Exclusive or with `2^k` flips bit `k` and no other. -/
theorem getLsbD_xor_ofNat_two_pow (v : Byte) {k : Nat} (hk : k < 8) (i : Nat) :
    (v ^^^ BitVec.ofNat 8 (2 ^ k)).getLsbD i = (v.getLsbD i ^^ decide (k = i)) := by
  rw [ofNat_two_pow_eq_twoPow, BitVec.getLsbD_xor, BitVec.getLsbD_twoPow, decide_eq_true hk, Bool.true_and]

/-- A value is seen by its own group alone (R122). -/
theorem decOut_set_getElem?_of_ne (F : Space) {j g : Nat} (u : Byte) (hg : j / 8 ≠ g) :
    (decOut (F.set j u))[g]? = (decOut F)[g]? :=
  decOut_getElem?_congr fun i hi => List.getElem?_set_ne (by omega)

/-- In its own group a value whose threshold changes flips the bit of its position, and no other (R126). -/
theorem decOut_set_getElem?_self {F : Space} {j : Nat} {u u' v : Byte} (hu : F[j]? = some u)
    (hcross : threshold u' = !threshold u) (hv : (decOut F)[j / 8]? = some v) :
    (decOut (F.set j u'))[j / 8]? = some (v ^^^ BitVec.ofNat 8 (2 ^ (7 - j % 8))) := by
  refine decOut_getElem?_eq_some_iff.2 fun i => ?_
  obtain ⟨w, hw, hbit⟩ := decOut_getElem?_eq_some_iff.1 hv i
  rw [getLsbD_xor_ofNat_two_pow v (by omega), ← hbit]
  by_cases hij : j = 8 * (j / 8) + i.val
  · rw [← hij] at hw ⊢
    obtain rfl : u = w := Option.some.inj (hu.symm.trans hw)
    obtain ⟨hj, -⟩ := List.getElem?_eq_some_iff.1 hu
    have hplace : 7 - j % 8 = 7 - i.val := by omega
    exact ⟨u', List.getElem?_set_self hj, by simp [hcross, hplace]⟩
  · have hplace : 7 - j % 8 ≠ 7 - i.val := by omega
    exact ⟨w, by rw [List.getElem?_set_ne hij, hw], by simp [hplace]⟩

/-! ## The empty input -/

/-- ENC of no bytes is within every limit and gives the image of width 0 (R143). -/
theorem exec_enc_nil (s : State) :
    exec (.enc 0 []) s = .next { s with result := some (.image 0 1 []) } :=
  exec_of_wellFormed (wellFormed_enc.2 ⟨admits_zero _, rfl⟩)

/-! ## The obligations -/

/-- Settles O41: ENC leaves the parameters, DEC admits its image there, and `decOut_encOut` gives the bytes back. -/
theorem roundTripForEveryInput : Obligations.RoundTripForEveryInput := by
  rintro s n bytes hp hn rfl
  have henc := exec_of_wellFormed (wellFormed_enc.2 ⟨hn, rfl⟩)
  refine ⟨encWidth bytes.length, encOut bytes, _, henc, rfl, ?_⟩
  have hdec := exec_of_wellFormed (s := deliver (resultOf (.enc bytes.length bytes)) s) (wellFormed_dec_encOut hp hn)
  rwa [resultOf_dec_encOut] at hdec

/-- Settles O43: no threshold of the altered image differs from the original's, so OUT is that of the round trip. -/
theorem noisyImageDecodesToInput : Obligations.NoisyImageDecodesToInput := by
  intro s t n w h bytes pix pix' hp hexec himage hlen hside
  obtain ⟨hn, rfl, hparams, rfl, rfl, rfl⟩ := exec_enc_image hexec himage
  rw [← hparams] at hp hn
  have hout : decOut (encOut bytes) = decOut pix' := by
    refine decOut_congr hlen.symm fun j u u' _ hu hu' => ?_
    obtain ⟨hhigh, hlow⟩ := hside j u u' hu hu'
    exact (threshold_eq_of_same_side (mem_encOut_eq_zero_or_max (List.mem_of_getElem? hu)) hhigh hlow).symm
  have hcount : 3 * encWidth bytes.length / 8 = bytes.length := groupCount_encWidth bytes.length
  rw [exec_dec_row_of_le_encWidth hp hn le_rfl (hlen.trans (encOut_length bytes)), ← hout, decOut_encOut, hcount]

/-- Settles O44: the value's own group flips the bit of its position, and every other group does not see it. -/
theorem crossingTheMidpointFlipsTheBit : Obligations.CrossingTheMidpointFlipsTheBit := by
  intro F j u u' v hu hcross hv
  have hthreshold : threshold u' = !threshold u := by
    rw [threshold_eq_getLsbD_seven, threshold_eq_getLsbD_seven, Bool.eq_not]
    exact hcross.symm
  obtain ⟨hin, -⟩ := List.getElem?_eq_some_iff.1 hv
  refine List.ext_getElem? fun g => ?_
  by_cases hg : j / 8 = g
  · rw [← hg, decOut_set_getElem?_self hu hthreshold hv, List.getElem?_set_self hin]
  · rw [decOut_set_getElem?_of_ne F u' hg, List.getElem?_set_ne hg]

/-- Settles O45: OUT of the cut stream is the cut OUT of the round trip. -/
theorem cutImageLosesTrailingBytes : Obligations.CutImageLosesTrailingBytes := by
  intro s t n w h k bytes pix hp hexec himage _
  obtain ⟨hn, rfl, hparams, rfl, rfl, rfl⟩ := exec_enc_image hexec himage
  rw [← hparams] at hp hn
  have hlen : ((encOut bytes).take (3 * (encWidth bytes.length - k))).length = 3 * (encWidth bytes.length - k) := by
    rw [List.length_take, encOut_length]; omega
  rw [exec_dec_row_of_le_encWidth hp hn (Nat.sub_le _ _) hlen, decOut_take, decOut_encOut]

/-- Settles O20: the request is well formed, its index is out of range, and `None` is no `Some`. -/
theorem bitgetBeyondEndIsNoValue : Obligations.BitgetBeyondEndIsNoValue := by
  rintro s idx n bytes hidx hn rfl hout
  refine ⟨?_, nofun⟩
  rw [← (bitget_eq_none_iff idx bytes).2 hout]
  exact exec_of_wellFormed (wellFormed_bitget.2 ⟨⟨hidx, hn⟩, rfl⟩)

/-- Settles O31: the request is well formed, and the image of its one byte is computed. -/
theorem encodingOf0x55 : Obligations.EncodingOf0x55 := by
  intro s hn
  have himage : resultOf (.enc 1 [0b01010101#8]) =
      .image 3 1 (flatten [[⟨0, 255, 0⟩, ⟨255, 0, 255⟩, ⟨0, 255, 0⟩]]) := by decide
  rw [exec_of_wellFormed (wellFormed_enc.2 ⟨hn, rfl⟩), himage]
  rfl

/-- Settles O36: the shape enters DEC by the limits and by `3·W·H` alone. -/
theorem decodingIgnoresShape : Obligations.DecodingIgnoresShape := by
  intro s t w h w' h' pix harea hw' hh' hexec
  have hstream : 3 * w * h = 3 * w' * h' := by rw [Nat.mul_assoc, harea, Nat.mul_assoc]
  obtain ⟨-, hlen, rfl⟩ := perform_next hexec
  have hlen' : pix.length = 3 * w' * h' := (badLength_eq_false.1 hlen).trans hstream
  rw [exec_dec_of_admitted hw' hh' hlen', streamLen_eq, groupCount_eq, hstream]
  rfl

/-- Settles O42: no bytes make no pixels, and no pixels hold no complete group. -/
theorem emptyInputRoundTrip : Obligations.EmptyInputRoundTrip := by
  intro s hh
  exact ⟨exec_enc_nil s, shortRasterDecodesToNothing s 0 1 [] (admits_zero _) hh rfl (by decide)⟩

/-- Settles O47: one pixel holds no complete group, and what it decodes to encodes to no pixel. -/
theorem encIsNoInverseOfDec : Obligations.EncIsNoInverseOfDec := by
  intro s hw hh
  exact ⟨shortRasterDecodesToNothing s 1 1 _ hw hh rfl (by decide), exec_enc_nil s, nofun⟩

end Sys2Proof.Machine

/-! PROOFS. When a request is refused and for which reason, and what the host's moves can lead to: the statements of
spec/60_exceptions.md. -/

namespace Sys2Proof.Machine

/-! ## The reasons of a refusal -/

theorem overLimitQ_eq_true {p : Params} {idx n : Nat} :
    overLimitQ p idx n = true ↔ p.idxw.holdsBits idx = false ∨ p.nmax.admits n = false := by
  simp [overLimitQ]

theorem overLimitE_eq_true {p : Params} {n : Nat} : overLimitE p n = true ↔ p.nmax.admits n = false := by
  simp [overLimitE]

theorem overLimitD_eq_true {p : Params} {w h : Nat} :
    overLimitD p w h = true ↔ p.wmax.admits w = false ∨ p.hmax.admits h = false := by
  simp [overLimitD]

theorem badLength_eq_true {S : Space} {n : Nat} : badLength S n = true ↔ S.length ≠ n := by simp [badLength]

/-- The outcome `o` names exactly the first of the three reasons that holds, in the order of R164, and is a next state
when none holds. -/
def NamesFirstReason (o : Host.Outcome State Fault Refusal) (reserved tooLarge wrongLength : Prop) : Prop :=
  (o = .refused .reservedOp ↔ reserved) ∧
  (o = .refused .overLimit ↔ tooLarge) ∧
  (o = .refused .badLength ↔ ¬ tooLarge ∧ wrongLength) ∧
  ((∃ t, o = .next t) ↔ ¬ reserved ∧ ¬ tooLarge ∧ ¬ wrongLength)

/-- A request with the reserved code has no format, so no limit and no length can be a reason beside it (R74). -/
theorem namesFirstReason_reservedOp {reserved tooLarge wrongLength : Prop} (hreserved : reserved)
    (hlimit : ¬ tooLarge) (hlen : ¬ wrongLength) :
    NamesFirstReason (.refused .reservedOp) reserved tooLarge wrongLength := by
  simp [NamesFirstReason, hreserved, hlimit, hlen]

/-- Retiring the request adds no reason to the two that `perform` tests. -/
theorem namesFirstReason_conclude_perform {tooLargeB badLenB : Bool} (r : Result) (s : State)
    {reserved tooLarge wrongLength : Prop} (hreserved : ¬ reserved) (hlimit : tooLargeB = true ↔ tooLarge)
    (hlen : badLenB = true ↔ wrongLength) :
    NamesFirstReason (conclude (perform tooLargeB badLenB r s)) reserved tooLarge wrongLength := by
  obtain ⟨h1, e⟩ | ⟨h1, h2, e⟩ | ⟨h1, h2, e⟩ := perform_cases tooLargeB badLenB r s
  · rw [e]
    simp [NamesFirstReason, hreserved, ← hlimit, h1]
  · rw [e]
    simp [NamesFirstReason, hreserved, ← hlimit, ← hlen, h1, h2]
  · rw [e]
    simp [NamesFirstReason, hreserved, ← hlimit, ← hlen, h1, h2]

/-! ## What the host's moves can lead to -/

theorem dropRefused_of_refused {s : State} {q : Refusal} (h : step s = .refused q) :
    s.dropRefused = some (retire s) := by simp [State.dropRefused, h]

theorem dropRefused_of_next {s t : State} (h : step s = .next t) : s.dropRefused = none := by
  simp [State.dropRefused, h]

/-- Whatever state a drop gives, it is the old one with the request retired. -/
theorem dropRefused_eq_some {s t : State} (h : s.dropRefused = some t) : t = retire s := by
  cases hstep : step s with
  | next u => rw [dropRefused_of_next hstep] at h; cases h
  | fault f => cases f
  | refused q => rw [dropRefused_of_refused hstep] at h; cases h; rfl

/-- If issuing gives a state, the CORE was idle, and no result is pending any more (R186). -/
theorem issue_eq_some {s t : State} {r : Request} (h : s.issue r = some t) :
    s.request = none ∧ t = { params := s.params, request := some r, result := none } := by
  cases hr : s.request with
  | none => rw [issue_idle hr] at h; cases h; exact ⟨rfl, rfl⟩
  | some q => rw [issue_busy hr] at h; cases h

/-- If the host takes a result, it was the pending one of an idle CORE, and the CORE keeps no copy (R34, R186). -/
theorem collect_eq_some {s t : State} {r : Result} (h : s.collect = some (r, t)) :
    s.request = none ∧ s.result = some r ∧ t = s.applyReset := by
  unfold State.collect at h
  split at h
  · next hidle hresult =>
    cases h
    exact ⟨hidle, hresult, by simp [State.applyReset, hidle]⟩
  · cases h

/-- With no result pending, valid parameters are all the invariant asks for. -/
theorem inv_of_no_result {s : State} (hp : s.params.valid = true) (h : s.result = none) : s.Inv :=
  ⟨hp, fun r hr => by rw [h] at hr; cases hr⟩

/-! ## The obligations -/

/-- Settles O5: the code decides which of the two tests of `perform` stand for the limit and the length, if any. -/
theorem refusalReasonsAreExact : Obligations.RefusalReasonsAreExact := by
  intro s r hr tooLarge wrongLength
  show NamesFirstReason (step s) (r.op = 3) tooLarge wrongLength
  obtain hop | hop | hop | hop := op_cases r.op
  · rw [step_decoded hr (decode_code0 hop)]
    refine namesFirstReason_conclude_perform _ s (by simp [hop]) ?_ ?_
    · simp [tooLarge, hop, overLimitQ_eq_true]
    · simp [wrongLength, hop, badLength_eq_true]
  · rw [step_decoded hr (decode_code1 hop)]
    refine namesFirstReason_conclude_perform _ s (by simp [hop]) ?_ ?_
    · simp [tooLarge, hop, overLimitE_eq_true]
    · simp [wrongLength, hop, badLength_eq_true]
  · rw [step_decoded hr (decode_code2 hop)]
    refine namesFirstReason_conclude_perform _ s (by simp [hop]) ?_ ?_
    · simp [tooLarge, hop, overLimitD_eq_true]
    · simp [wrongLength, hop, badLength_eq_true, streamLen_eq]
  · rw [step_rejected hr (decode_code3 hop)]
    exact namesFirstReason_reservedOp hop (by simp [tooLarge, hop]) (by simp [wrongLength, hop])

/-- Settles O6: `Fault` has no constructor. -/
theorem noCauseAndNoFault : Obligations.NoCauseAndNoFault :=
  ⟨⟨nofun⟩, fun _ f => nomatch f⟩

/-- Settles O10: a drop retires the request and touches nothing else. -/
theorem refusalLeavesEverythingUnchanged : Obligations.RefusalLeavesEverythingUnchanged :=
  fun _ => ⟨fun _ => dropRefused_of_refused, fun _ => dropRefused_of_next⟩

/-- Settles O52: reset, issuing and taking a result leave none pending, and a drop leaves the one there was. -/
theorem hostMovesKeepTheInvariant : Obligations.HostMovesKeepTheInvariant := by
  intro s hs
  obtain ⟨hp, hshaped⟩ := hs
  have hreset : s.applyReset.Inv := inv_of_no_result hp rfl
  refine ⟨hreset, fun r t hissue => ?_, fun t hdrop => ?_, fun r t hcollect => ?_⟩
  · obtain ⟨-, rfl⟩ := issue_eq_some hissue
    exact inv_of_no_result hp rfl
  · obtain rfl := dropRefused_eq_some hdrop
    exact inv_retire ⟨hp, hshaped⟩
  · obtain ⟨-, hresult, rfl⟩ := collect_eq_some hcollect
    exact ⟨hreset, hshaped r hresult⟩

end Sys2Proof.Machine

/-! PROOFS. The hand-over at reset and while an operation is in progress, and what appended pixels add to the output of a
round trip: the statements of spec/70_reset_and_hazards.md. -/

namespace Sys2Proof.Machine

/-! ## The hand-over and the prefix of a stream -/

/-- While an operation is in progress the host takes no result, whether one is pending or not (R186). -/
theorem collect_busy {s : State} {q : Request} (h : s.request = some q) : s.collect = none := by
  simp [State.collect, h]

/-- The bytes of a stream's complete groups stay at the front of OUT when the stream goes on (R123, R188). -/
theorem decOut_prefix_append (F extra : Space) : decOut F <+: decOut (F ++ extra) := by
  have hfront : decOut F = (decOut (F ++ extra)).take (F.length / 8) := by rw [← decOut_take, List.take_left]
  rw [hfront]
  exact List.take_prefix _ _

/-! ## The obligations -/

/-- Settles O46: OUT of the longer stream begins with OUT of the encoder's image, which is the input. -/
theorem appendedPixelsAddWholeGroups : Obligations.AppendedPixelsAddWholeGroups := by
  intro s t n w h k bytes pix extra hp hexec himage hextra hwk
  obtain ⟨-, rfl, hparams, rfl, rfl, rfl⟩ := exec_enc_image hexec himage
  obtain ⟨-, -, -, hhmax⟩ := params_valid_iff.1 hp
  rw [← hparams] at hwk hhmax
  have hlen : (encOut bytes ++ extra).length = 3 * (encWidth bytes.length + k) * 1 := by
    rw [List.length_append, encOut_length, hextra]; omega
  obtain ⟨more, hout⟩ := decOut_prefix_append (encOut bytes) extra
  rw [decOut_encOut] at hout
  have hcount : bytes.length + more.length = 3 * (encWidth bytes.length + k) * 1 / 8 := by
    rw [← List.length_append, hout, decOut_length, hlen, groupCount_eq]
  obtain ⟨hreal, -⟩ := three_mul_encWidth_bounds bytes.length
  refine ⟨more, by omega, ?_⟩
  rw [exec_dec_of_admitted (h := 1) hwk (hmax_admits_encHeight hhmax) hlen, hcount, hout]

/-- Settles O1: reset leaves the parameters alone, so that is all the next request finds beside itself. -/
theorem resetLeavesIdleAndNoTrace : Obligations.ResetLeavesIdleAndNoTrace := by
  refine ⟨rfl, rfl, fun s => ⟨applyReset_request s, applyReset_result s, applyReset_params s, fun r i hdecode => ?_⟩⟩
  exact ⟨_, issue_idle (applyReset_request s) r, step_decoded rfl hdecode⟩

/-- Settles O11: both host moves need an idle CORE. -/
theorem hostWaitsForTheEnd : Obligations.HostWaitsForTheEnd :=
  fun _ _ r hbusy => ⟨issue_busy hbusy r, collect_busy hbusy⟩

end Sys2Proof.Machine

/-! PROOFS. The step of an idle CORE: the statement that rests on the model's choice of log 2. -/

namespace Sys2Proof.Machine

/-- Settles O2: with no request in progress there is nothing to decode or perform. -/
theorem idleStepChangesNothing : Obligations.IdleStepChangesNothing :=
  fun _ hidle => step_idle hidle

end Sys2Proof.Machine
